-- ==== Sys2Proof/Word.lean ====
section
/-!
DEFINITION. Word.lean: the two bit-vector types of the engine, a memory byte and a 32-bit word.
-/

namespace Sys2Proof

/-- One byte of the region: "each byte holds 0 to 255" (10_state.md R21). -/
abbrev Byte := BitVec 8

/-- One 32-bit word: a word of a command packet, an operand latch, the response word, a binary32
pattern (30_encoding.md R71, R86; 20_memory.md R42). -/
abbrev Word := BitVec 32

end Sys2Proof
end

