-- ==== Sys2Proof/Syntax.lean ====
section
/-!
DEFINITION. Syntax.lean: the five commands of the engine, and the command packet.

Operands are natural numbers: an operand word is "read as an unsigned 32-bit integer" (R82) and all
arithmetic on operands is exact (R12). That an operand fits its word is checked in WellFormed.lean.
-/

namespace Sys2Proof

/-- The command set: one constructor per row of spec/opcode_table.json, operands in the order of
the row (30_encoding.md R72, R74). -/
inductive Instr where
  /-- `Y_TO_HW` (R120). -/
  | yToHw (srcOffset dstOffset sampleCount : Nat)
  /-- `NV12_TO_CHW` (R142). -/
  | nv12ToChw (srcOffset dstOffset width height : Nat)
  /-- `I420_TO_CHW` (R162). -/
  | i420ToChw (srcOffset dstOffset width height : Nat)
  /-- `TILE_TO_CHW` (R180). -/
  | tileToChw (srcOffset dstOffset x y width height frameWidth frameHeight : Nat)
  /-- `BILINEAR_UPSCALE` (R200). -/
  | bilinearUpscale (srcOffset dstOffset srcWidth srcHeight : Nat)
  deriving DecidableEq, Repr

/-- The used operands of a command, in operand order (R72). -/
def Instr.operands : Instr → List Nat
  | .yToHw a b n => [a, b, n]
  | .nv12ToChw a b w h => [a, b, w, h]
  | .i420ToChw a b w h => [a, b, w, h]
  | .tileToChw a b x y w h fw fh => [a, b, x, y, w, h, fw, fh]
  | .bilinearUpscale a b w h => [a, b, w, h]

/-- The mnemonic of a command (R85). -/
def Instr.mnemonic : Instr → String
  | .yToHw _ _ _ => "Y_TO_HW"
  | .nv12ToChw _ _ _ _ => "NV12_TO_CHW"
  | .i420ToChw _ _ _ _ => "I420_TO_CHW"
  | .tileToChw _ _ _ _ _ _ _ _ => "TILE_TO_CHW"
  | .bilinearUpscale _ _ _ _ => "BILINEAR_UPSCALE"

/-- A command packet: nine words, the header `w0` and the operand words `w1` to `w8` (R71). -/
structure Packet where
  w0 : Word
  w1 : Word
  w2 : Word
  w3 : Word
  w4 : Word
  w5 : Word
  w6 : Word
  w7 : Word
  w8 : Word
  deriving DecidableEq, Repr

end Sys2Proof
end

