-- ==== Sys2Proof/WellFormed.lean ====
section
/-!
DEFINITION. WellFormed.lean: which terms of `Instr` stand for a packet.
-/

namespace Sys2Proof

/-- Every operand fits its 32-bit operand word: 0 to 2^32-1 (R82). Nothing else is checked: decode
does not look at the values of used operands (R80), and a command whose preconditions fail is still
a legal command (R221). -/
def Instr.wf (i : Instr) : Bool := i.operands.all (fun v => decide (v < 4294967296))

end Sys2Proof
end

