-- ==== Sys2Proof/Decode.lean ====
section
/-!
DEFINITION. Decode.lean: the decoder, total on packets and rejecting by name, the encoder, and the
packet as a 288-bit vector (30_encoding.md R71 to R74, R80, R81).
-/

namespace Sys2Proof

/-- Why a packet is illegal. Raised by `decode`; the engine answers all of them alike, with response
code 1 (R224), so the name is for the reader only. Safe: an illegal packet does nothing. -/
inductive IllegalPacket where
  /-- `W0[31:8]` is not 0 (R80 (a)). -/
  | reservedHeaderBits
  /-- Opcode 0, "permanently illegal" (R81). -/
  | opcodeZero
  /-- Opcodes 6 to 255, "reserved and illegal" (R81). -/
  | opcodeReserved
  /-- An operand word that the command's format does not use is not 0 (R80 (c)). -/
  | unusedWordNotZero
  deriving DecidableEq, Repr

/-- What decoding answers. -/
inductive Decoded where
  | legal (i : Instr)
  | illegal (why : IllegalPacket)
  deriving DecidableEq, Repr

/-- The opcode field `W0[7:0]` (R71). -/
def Packet.opcode (p : Packet) : BitVec 8 := p.w0.extractLsb' 0 8

/-- The reserved field `rsv0` = `W0[31:8]` (R71). -/
def Packet.rsv0 (p : Packet) : BitVec 24 := p.w0.extractLsb' 8 24

/-- The words format `F3` does not use, `W4` to `W8`, are 0 (R72). -/
def Packet.unusedF3Zero (p : Packet) : Bool :=
  p.w4 == 0 && p.w5 == 0 && p.w6 == 0 && p.w7 == 0 && p.w8 == 0

/-- The words format `F4` does not use, `W5` to `W8`, are 0 (R72). -/
def Packet.unusedF4Zero (p : Packet) : Bool :=
  p.w5 == 0 && p.w6 == 0 && p.w7 == 0 && p.w8 == 0

/-- The decoder (R80): header bits, then opcode, then unused words; it looks at no used operand. -/
def decode (p : Packet) : Decoded :=
  if p.rsv0 ≠ 0 then .illegal .reservedHeaderBits
  else if p.opcode = 1 then
    if p.unusedF3Zero then .legal (.yToHw p.w1.toNat p.w2.toNat p.w3.toNat)
    else .illegal .unusedWordNotZero
  else if p.opcode = 2 then
    if p.unusedF4Zero then .legal (.nv12ToChw p.w1.toNat p.w2.toNat p.w3.toNat p.w4.toNat)
    else .illegal .unusedWordNotZero
  else if p.opcode = 3 then
    if p.unusedF4Zero then .legal (.i420ToChw p.w1.toNat p.w2.toNat p.w3.toNat p.w4.toNat)
    else .illegal .unusedWordNotZero
  else if p.opcode = 4 then
    .legal (.tileToChw p.w1.toNat p.w2.toNat p.w3.toNat p.w4.toNat p.w5.toNat p.w6.toNat
      p.w7.toNat p.w8.toNat)
  else if p.opcode = 5 then
    if p.unusedF4Zero then .legal (.bilinearUpscale p.w1.toNat p.w2.toNat p.w3.toNat p.w4.toNat)
    else .illegal .unusedWordNotZero
  else if p.opcode = 0 then .illegal .opcodeZero
  else .illegal .opcodeReserved

/-- An operand as its operand word (R82). -/
def operandWord (v : Nat) : Word := BitVec.ofNat 32 v

/-- The encoder (R72, R74): the header is the opcode, operands in order, unused words 0. -/
def encode : Instr → Packet
  | .yToHw a b n =>
    ⟨0x00000001, operandWord a, operandWord b, operandWord n, 0, 0, 0, 0, 0⟩
  | .nv12ToChw a b w h =>
    ⟨0x00000002, operandWord a, operandWord b, operandWord w, operandWord h, 0, 0, 0, 0⟩
  | .i420ToChw a b w h =>
    ⟨0x00000003, operandWord a, operandWord b, operandWord w, operandWord h, 0, 0, 0, 0⟩
  | .tileToChw a b x y w h fw fh =>
    ⟨0x00000004, operandWord a, operandWord b, operandWord x, operandWord y, operandWord w,
      operandWord h, operandWord fw, operandWord fh⟩
  | .bilinearUpscale a b w h =>
    ⟨0x00000005, operandWord a, operandWord b, operandWord w, operandWord h, 0, 0, 0, 0⟩

/-- The packet as the 288-bit vector `W8 || W7 || ... || W0` (R71). -/
def Packet.toBits (p : Packet) : BitVec 288 :=
  p.w8 ++ p.w7 ++ p.w6 ++ p.w5 ++ p.w4 ++ p.w3 ++ p.w2 ++ p.w1 ++ p.w0

/-- The nine words of a 288-bit vector (R71). -/
def Packet.ofBits (v : BitVec 288) : Packet where
  w0 := v.extractLsb' 0 32
  w1 := v.extractLsb' 32 32
  w2 := v.extractLsb' 64 32
  w3 := v.extractLsb' 96 32
  w4 := v.extractLsb' 128 32
  w5 := v.extractLsb' 160 32
  w6 := v.extractLsb' 192 32
  w7 := v.extractLsb' 224 32
  w8 := v.extractLsb' 256 32

/-- The packet whose bits, numbered as spec/opcode_table.json numbers them (bit 0 the least
significant bit of `W0`), are the low `nbits` bits of `w`; the bits above are 0. -/
def tablePacket (nbits w : Nat) : Packet :=
  let v := if 288 ≤ nbits then w else w % 2 ^ nbits
  { w0 := BitVec.ofNat 32 v
    w1 := BitVec.ofNat 32 (v >>> 32)
    w2 := BitVec.ofNat 32 (v >>> 64)
    w3 := BitVec.ofNat 32 (v >>> 96)
    w4 := BitVec.ofNat 32 (v >>> 128)
    w5 := BitVec.ofNat 32 (v >>> 160)
    w6 := BitVec.ofNat 32 (v >>> 192)
    w7 := BitVec.ofNat 32 (v >>> 224)
    w8 := BitVec.ofNat 32 (v >>> 256) }

/-- The command the decoder reads from those bits; none where it refuses. -/
def decodeTableWord (nbits w : Nat) : Option Instr :=
  match decode (tablePacket nbits w) with
  | .legal i => some i
  | .illegal _ => none

end Sys2Proof
end

