-- ==== Sys2Proof/Machine/Operands.lean ====
section
/-!
DEFINITION. Machine/Operands.lean: what a command's operands say: its source and output ranges and its
preconditions (20_memory.md R49 to R51; the Ranges and Preconditions items of R120, R142, R162, R180,
R200). All of it in exact natural numbers (R12).
-/

namespace Sys2Proof.Machine

/-- A half-open range of byte addresses `[lo, hi)` (20_memory.md section 6). -/
structure Span where
  lo : Nat
  hi : Nat
  deriving DecidableEq, Repr

/-- The address lies in the range. -/
def spanHas (r : Span) (a : Nat) : Bool := decide (r.lo ≤ a) && decide (a < r.hi)

/-- The range of `n` bytes from `lo` upward. -/
def spanOf (lo n : Nat) : Span := ⟨lo, lo + n⟩

/-- The source range `SRC` of a command. -/
def srcSpan : Instr → Span
  | .yToHw src _ n => spanOf src n
  | .nv12ToChw src _ w h => spanOf src (w * h + w * h / 2)
  | .i420ToChw src _ w h => spanOf src (w * h + w * h / 2)
  | .tileToChw src _ _ _ _ _ fw fh => spanOf src (fw * fh + fw * fh / 2)
  | .bilinearUpscale src _ w h => spanOf src (w * h)

/-- The output range `OUT` of a command. -/
def outSpan : Instr → Span
  | .yToHw _ dst n => spanOf dst (4 * n)
  | .nv12ToChw _ dst w h => spanOf dst (12 * (w * h))
  | .i420ToChw _ dst w h => spanOf dst (12 * (w * h))
  | .tileToChw _ dst _ _ w h _ _ => spanOf dst (12 * (w * h))
  | .bilinearUpscale _ dst w h => spanOf dst (4 * (w * h))

/-- `P_RANGE` (R49): both ranges lie wholly inside the region. -/
def pRange (i : Instr) (memSize : Nat) : Bool :=
  decide ((srcSpan i).hi ≤ memSize) && decide ((outSpan i).hi ≤ memSize)

/-- `P_DISJ` (R50): the source and the output range have no byte in common. -/
def pDisj (i : Instr) : Bool :=
  decide ((srcSpan i).hi ≤ (outSpan i).lo) || decide ((outSpan i).hi ≤ (srcSpan i).lo)

/-- `P_POS` (R51): every count and dimension operand is at least 1. -/
def pPos : Instr → Bool
  | .yToHw _ _ n => decide (1 ≤ n)
  | .nv12ToChw _ _ w h => decide (1 ≤ w) && decide (1 ≤ h)
  | .i420ToChw _ _ w h => decide (1 ≤ w) && decide (1 ≤ h)
  | .tileToChw _ _ _ _ w h fw fh =>
    decide (1 ≤ w) && decide (1 ≤ h) && decide (1 ≤ fw) && decide (1 ≤ fh)
  | .bilinearUpscale _ _ w h => decide (1 ≤ w) && decide (1 ≤ h)

/-- The conditions of each command on its own operands: divisibility, evenness, and that a tile lies
inside its frame (R121, R143, R163, R182). -/
def pShape : Instr → Bool
  | .yToHw _ _ n => decide (n % 4 = 0)
  | .nv12ToChw _ _ w h => decide (w % 4 = 0) && decide (h % 2 = 0)
  | .i420ToChw _ _ w h => decide (w % 8 = 0) && decide (h % 2 = 0)
  | .tileToChw _ _ x y w h fw fh =>
    decide (x % 4 = 0) && decide (w % 8 = 0) && decide (h % 2 = 0) && decide (fw % 2 = 0)
      && decide (fh % 2 = 0) && decide (x + w ≤ fw) && decide (y + h ≤ fh)
  | .bilinearUpscale _ _ _ _ => true

/-- All preconditions of a command hold in a region of `memSize` bytes. The engine checks none of
them (R221): they decide only whether the outcome is `OK` or `UNSPEC` (R14). -/
def preconditions (i : Instr) (memSize : Nat) : Bool :=
  pShape i && pPos i && pRange i memSize && pDisj i

end Sys2Proof.Machine
end

