-- ==== Sys2Proof/Config.lean ====
section
/-!
DEFINITION. Config.lean: what is fixed for the machine, and the free values.

A free value is an `opaque` constant with no body: no proof can see what it is, so a claim about a
run through it holds whatever the hardware leaves there.
-/

namespace Sys2Proof

/-- Every address an operand can name lies below this bound: `MEM_SIZE` is at most 2^32
(00_scope.md R9). -/
def Config.addressSpace : Nat := 4294967296

/-- What an address that the memory list does not name reads as. It is the model's way of writing a
memory down: every content of the region has exactly one list, so no content is excluded.
DESIGN CHOICE (log entry 2): 0; the content at power-up is not given (R253). -/
def Config.unlistedByte : Byte := 0

/-- `MEM_SIZE` in the reset state. DESIGN CHOICE (log entry 3): the spec leaves `MEM_SIZE` open,
from 1 to 2^32 (R9); every statement holds for every size. -/
def Config.resetMemSize : Nat := 65536

/-- The free byte of draw `k` at address `a`: a byte the spec calls unspecified (R14, R63, R252).
The draw number is the state's own counter `free`, so that two draws of a run are unrelated. -/
opaque Config.freeByte (k a : Nat) : Byte

/-- The free word of draw `k` for latch `i` (0 to 7: operand latches, 8: the header latch), whose
contents outside a call the spec leaves undefined (R24, R33). -/
opaque Config.freeWord (k i : Nat) : Word

end Sys2Proof
end

