-- ==== Sys2Proof/Machine/State.lean ====
section
/-!
DEFINITION. Machine/State.lean: the state of the engine, of the region it works on, and of the
host's side of its channels; the reasons a step can stop; the state after reset.
-/

namespace Sys2Proof.Machine

/-- The engine status (10_state.md R23): one bit, `IDLE` = 0, `BUSY` = 1. -/
inductive Status where
  | idle
  | busy
  deriving DecidableEq, Repr

/-- The shared region `MEM` (10_state.md R21) as the list of its bytes that differ from
`Config.unlistedByte`, addresses strictly rising. -/
abbrev Memory := List Host.Cell

/-- The list is in canonical form from address `lo` on: addresses strictly rising, no entry equal to
what an unlisted address reads as. -/
def Memory.canonicalFrom : Nat → Memory → Bool
  | _, [] => true
  | lo, (k, b) :: m => decide (lo ≤ k) && b != Config.unlistedByte && Memory.canonicalFrom (k + 1) m

/-- The canonical form of memory: equal memories are equal lists. -/
def Memory.wf (m : Memory) : Bool := Memory.canonicalFrom 0 m

/-- Every listed byte exists: its address is below `MEM_SIZE` (R21). -/
def Memory.within (size : Nat) (m : Memory) : Bool := m.all (fun c => decide (c.1 < size))

/-- A packet on the command channel that the engine has not accepted yet (30_encoding.md R73).
`disturbed` is the model's own bookkeeping: the host has written a byte of this packet's source or
output range since it presented it (duty R267; DESIGN CHOICE, log entry 10). -/
structure Presented where
  packet : Packet
  disturbed : Bool
  deriving DecidableEq, Repr

/-- One action of the host, the external agent that owns the region (00_scope.md R5), at the
engine's interface (R70), and the one entry that is not an action: whose turn it is (DESIGN CHOICE, log
entry 11). -/
inductive HostAction where
  /-- Present a command packet on the command channel (R73). -/
  | present (p : Packet)
  /-- Write one byte of the region (R55). -/
  | write (addr : Nat) (b : Byte)
  /-- Read one byte of the region (R55). -/
  | read (addr : Nat)
  /-- Take the oldest response word, waiting for one if there is none (R255). -/
  | takeResponse
  /-- Grow the region by `extra` bytes (R269). -/
  | grow (extra : Nat)
  /-- Assert the reset input (R250). -/
  | assertReset
  /-- The host does nothing and the engine takes one step. -/
  | engineTurn
  deriving DecidableEq, Repr

/-- The machine: the engine, the region, the channels between engine and host, and what the host
will do. Fields marked OWN are the model's bookkeeping and no state of the spec (log entries 1, 10,
20). Loop counters and lane registers are not carried (R28, R30; log entry 15). -/
structure State where
  /-- The region `MEM` (R21). -/
  mem : Memory
  /-- `MEM_SIZE`, the number of bytes of the region; the host may grow it between calls (R9, R269). -/
  memSize : Nat
  /-- The engine status (R23). -/
  status : Status
  /-- The opcode latch, `W0[7:0]` of the accepted packet (R73). -/
  opcode : BitVec 8
  /-- The rest of the accepted header, `W0[31:8]`, which decode looks at (R80 (a); DEDUCED, log
  entry 5). -/
  rsv0 : BitVec 24
  /-- The operand latches `x[0]` to `x[7]` (R24). -/
  x : Vector Word 8
  /-- The command channel: packets presented and not accepted, oldest first (R70, R73). -/
  cmdChan : List Presented
  /-- The response channel: responses delivered and not taken, oldest first (R70, R86). -/
  rspChan : List Word
  /-- What the host will do, oldest first (Host interface; R5, R55). -/
  host : List HostAction
  /-- The bytes the host's reads have returned, oldest first. -/
  hostReads : List Byte
  /-- OWN: the host broke duty R267 for the running command, so its outcome is `UNSPEC` (R63). -/
  disturbed : Bool
  /-- OWN: the number of the next draw of free values. -/
  free : Nat
  deriving DecidableEq, Repr

/-- Why the machine stops with a fault. -/
inductive Fault where
  /-- Raised by the host actions `write` and `read` at an address at or past `MEM_SIZE`, which does
  not exist (R21). No command raises it. DESIGN CHOICE (log entry 12), safe: the machine
  stops where no behaviour is given. -/
  | hostAddressOutsideRegion
  deriving DecidableEq, Repr

/-- Why a step has no meaning. -/
inductive Refusal where
  /-- Raised by an arm of `exec` for an instruction without a meaning; none is left. Safe. -/
  | notModelled (mnemonic : String)
  /-- Raised by the host action `grow` while a command is presented or running: "unspecified" (R269;
  93_implementation_defined.md U18, treatment refuse). No command raises it. DESIGN CHOICE (log
  entry 12), safe. -/
  | regionGrownDuringCall
  /-- Raised by the host action `grow` past 2^32 bytes, outside the range of `MEM_SIZE` (R9). No
  command raises it. DESIGN CHOICE (log entry 12), safe. -/
  | regionLargerThanAddressSpace
  deriving DecidableEq, Repr

/-- The machine right after reset (R33, R250): status `IDLE`, both channels empty. The latches are
"unspecified, unreadable" and `MEM` is not given: DESIGN CHOICE, all 0 (log entries 2, 3, 4). -/
def State.reset : State where
  mem := []
  memSize := Config.resetMemSize
  status := .idle
  opcode := 0
  rsv0 := 0
  x := Vector.replicate 8 0
  cmdChan := []
  rspChan := []
  host := []
  hostReads := []
  disturbed := false
  free := 0

end Sys2Proof.Machine
end

