-- ==== Sys2Proof/Machine/Flags.lean ====
section
/-!
DEFINITION. Machine/Flags.lean: the engine has no flags (10_state.md R26). What stands in their place
is the response word of a call, "a message, not stored state" (R86), and the three outcomes it comes
from (R14, R225).
-/

namespace Sys2Proof.Machine

/-- The response word of a legal command, outcomes `OK` and `UNSPEC` alike (R86, R225). -/
def responseLegal : Word := 0x00000000

/-- The response word of an illegal packet (R86, R224). -/
def responseIllegal : Word := 0x00000001

/-- The outcomes of a packet (R14). -/
inductive OutcomeClass where
  | ok
  | illegal
  | unspec
  deriving DecidableEq, Repr

/-- The command, run in `s`, has outcome `OK`: its preconditions hold (R14) and the host kept duty
R267 (R63). -/
def callOk (i : Instr) (s : State) : Bool := preconditions i s.memSize && !s.disturbed

/-- The outcome of a packet that the engine runs in `s` (R14, R225). -/
def outcomeOf (p : Packet) (s : State) : OutcomeClass :=
  match decode p with
  | .illegal _ => .illegal
  | .legal i => if callOk i s then .ok else .unspec

end Sys2Proof.Machine
end

