-- ==== Sys2Proof/Machine/Ops.lean ====
section
/-!
DEFINITION. Machine/Ops.lean: the shared operations: bytes and multi-byte values of the region, the
counted loop, the latches, accepting a packet, answering it, the `UNSPEC` outcome, the `IllegalCommand`
response (this engine's only exception, R224), and running a command.
-/

namespace Sys2Proof.Machine

/-! ### The region -/

/-- `MEM[a]` (R13). -/
def Memory.read : Memory → Nat → Byte
  | [], _ => Config.unlistedByte
  | (k, b) :: m, a => if k = a then b else Memory.read m a

/-- `MEM[a] <- v` (R13), keeping the canonical form. -/
def Memory.write : Memory → Nat → Byte → Memory
  | [], a, v => if v = Config.unlistedByte then [] else [(a, v)]
  | (k, b) :: m, a, v =>
    if a < k then
      if v = Config.unlistedByte then (k, b) :: m else (a, v) :: (k, b) :: m
    else if a = k then
      if v = Config.unlistedByte then m else (a, v) :: m
    else (k, b) :: Memory.write m a v

/-- `for i in 0 .. n-1: body` (R13): ascending, zero times when `n` is 0. -/
def forUpTo : Nat → (Nat → Memory → Memory) → Memory → Memory
  | 0, _, m => m
  | n + 1, body, m => body n (forUpTo n body m)

/-- `MemRead(addr, n)`: little-endian, the byte at `addr` least significant (R13, R41). -/
def memRead (m : Memory) : Nat → Nat → Nat
  | _, 0 => 0
  | addr, n + 1 => (m.read addr).toNat + 256 * memRead m (addr + 1) n

/-- `MemWrite(addr, n, v)`: `MEM[addr+k] <- (v >> (8*k)) % 256` for `k` from 0 to `n-1` (R13, R41). -/
def memWrite (m : Memory) (addr n v : Nat) : Memory :=
  forUpTo n (fun k m => m.write (addr + k) (BitVec.ofNat 8 (v >>> (8 * k)))) m

/-- `MemCopy(dst, src, n)`: byte by byte, ascending (R13). -/
def memCopy (m : Memory) (dst src n : Nat) : Memory :=
  forUpTo n (fun k m => m.write (dst + k) (m.read (src + k))) m

/-- The 32-bit pattern at `a`: the float of a tensor element (R41, R42). -/
def readFloat (m : Memory) (a : Nat) : Word := BitVec.ofNat 32 (memRead m a 4)

/-- `MemWrite(a, 4, p)` for a 32-bit pattern `p` (R41). -/
def writeFloat (m : Memory) (a : Nat) (p : Word) : Memory := memWrite m a 4 p.toNat

/-- The bytes from `lo` on, `n` of them, take the free values of draw `k`. -/
def freeFill (k lo n : Nat) (m : Memory) : Memory :=
  forUpTo n (fun j m => m.write (lo + j) (Config.freeByte k (lo + j))) m

/-! ### Latches, acceptance, response -/

/-- The packet the latches hold (R73): what the engine decodes. -/
def latchedPacket (s : State) : Packet where
  w0 := s.rsv0 ++ s.opcode
  w1 := s.x[0]
  w2 := s.x[1]
  w3 := s.x[2]
  w4 := s.x[3]
  w5 := s.x[4]
  w6 := s.x[5]
  w7 := s.x[6]
  w8 := s.x[7]

/-- Acceptance of a packet: opcode latch and operand latches take its words, status becomes `BUSY`
(R73). -/
def latchPacket (p : Packet) (disturbed : Bool) (s : State) : State :=
  { s with
    opcode := p.opcode
    rsv0 := p.rsv0
    x := #v[p.w1, p.w2, p.w3, p.w4, p.w5, p.w6, p.w7, p.w8]
    status := .busy
    disturbed := disturbed }

/-- An `IDLE` engine accepts the oldest presented packet; with none presented it waits (R73, R236). -/
def acceptPacket (s : State) : State :=
  match s.cmdChan with
  | [] => s
  | p :: rest => latchPacket p.packet p.disturbed { s with cmdChan := rest }

/-- The latches lose their contents: what they hold outside a call is not defined and nothing can
read it (R24, R33; free words, log entry 4). -/
def releaseLatches (s : State) : State :=
  { s with
    opcode := (Config.freeWord s.free 8).extractLsb' 0 8
    rsv0 := (Config.freeWord s.free 8).extractLsb' 8 24
    x := #v[Config.freeWord s.free 0, Config.freeWord s.free 1, Config.freeWord s.free 2,
      Config.freeWord s.free 3, Config.freeWord s.free 4, Config.freeWord s.free 5,
      Config.freeWord s.free 6, Config.freeWord s.free 7]
    disturbed := false
    free := s.free + 1 }

/-- The end of a call: its response word is delivered and the status becomes `IDLE` (R86). -/
def deliverResponse (rsp : Word) (s : State) : State :=
  releaseLatches { s with rspChan := s.rspChan ++ [rsp], status := .idle }

/-- The whole region takes unspecified values (outcome `UNSPEC`, R14, R222): every byte is free. -/
def scrambleRegion (s : State) : State :=
  { s with mem := freeFill s.free 0 s.memSize [], free := s.free + 1 }

/-- `raise IllegalCommand` (R224): no memory access, response word 1, back to `IDLE`, nothing else
recorded. -/
def raiseIllegalCommand (s : State) : State := deliverResponse responseIllegal s

/-- A legal command runs to its end and is answered 0 (R220, R86). Outcome `OK`: `result` of the
region at acceptance is the region. Outcome `UNSPEC`: every byte of the region is free (R14, R222;
DESIGN CHOICE, log entry 1).
The engine cannot tell the two apart (R86). -/
def runCommand (i : Instr) (result : Memory → Memory) (s : State) :
    Host.Outcome State Fault Refusal :=
  .next (deliverResponse responseLegal
    (if callOk i s then { s with mem := result s.mem } else scrambleRegion s))

end Sys2Proof.Machine
end

