-- ==== Sys2Proof/Machine/BilinearUpscaler.lean ====
section
/-!
DEFINITION. Machine/BilinearUpscaler.lean: the Bilinear Channel Upscaler and `BILINEAR_UPSCALE`
(45_bilinear_upscaler.md).
-/

namespace Sys2Proof.Machine

/-- `round_avg(a, b) = (a + b + 1) >> 1`, the sum formed without wrap-around (R201). -/
def roundAvg (a b : Byte) : Byte := BitVec.ofNat 8 ((a.toNat + b.toNat + 1) >>> 1)

/-- The diagonal output: horizontal pairs first, then the two results (R203, R204). -/
def diagonalAvg (tl tr bl br : Byte) : Byte := roundAvg (roundAvg tl tr) (roundAvg bl br)

/-- The sample at row `y`, column `x` of a channel of `w` columns and `h` rows at `src`, both
coordinates clamped to the last column and row (R200, R202, R206). -/
def clampedSample (channel : Memory) (src w h y x : Nat) : Byte :=
  channel.read (src + min y (h - 1) * w + min x (w - 1))

/-- The output byte at row `v`, column `u`: address `dst + v*(2*W) + u` (R200, R206). -/
def upscaledAddress (dst w v u : Nat) : Nat := dst + v * (2 * w) + u

/-- The four output bytes of the source pixel in row `y`, column `x` (R200, R203). -/
def upscalePixel (channel : Memory) (src dst w h y x : Nat) (m : Memory) : Memory :=
  let tl := clampedSample channel src w h y x
  let tr := clampedSample channel src w h y (x + 1)
  let bl := clampedSample channel src w h (y + 1) x
  let br := clampedSample channel src w h (y + 1) (x + 1)
  let m := m.write (upscaledAddress dst w (2 * y) (2 * x)) tl
  let m := m.write (upscaledAddress dst w (2 * y) (2 * x + 1)) (roundAvg tl tr)
  let m := m.write (upscaledAddress dst w (2 * y + 1) (2 * x)) (roundAvg tl bl)
  m.write (upscaledAddress dst w (2 * y + 1) (2 * x + 1)) (diagonalAvg tl tr bl br)

/-- The whole upscale of a channel of `w` columns and `h` rows (R200). -/
def upscaleChannel (channel : Memory) (src dst w h : Nat) (m : Memory) : Memory :=
  forUpTo h (fun y m => forUpTo w (fun x m => upscalePixel channel src dst w h y x m) m) m

/-- `BILINEAR_UPSCALE srcOffset, dstOffset, srcWidth, srcHeight` (R200). -/
def execBilinearUpscale (srcOffset dstOffset srcWidth srcHeight : Nat) (s : State) :
    Host.Outcome State Fault Refusal :=
  runCommand (.bilinearUpscale srcOffset dstOffset srcWidth srcHeight)
    (fun mem => upscaleChannel mem srcOffset dstOffset srcWidth srcHeight mem) s

end Sys2Proof.Machine
end

