-- ==== Sys2Proof/Machine/Normalizer.lean ====
section
/-!
DEFINITION. Machine/Normalizer.lean: the Byte→Float Normalizer (40_normalizer.md): the binary32 division
by 255.0, and the lane operations of the chroma upsamplers.
-/

namespace Sys2Proof.Machine

/-! ### binary32 -/

/-- Biased exponent `p[30:23]` (R42). -/
def binary32Exponent (p : Word) : Nat := (p.extractLsb' 23 8).toNat

/-- Fraction `p[22:0]` (R42). -/
def binary32Fraction (p : Word) : Nat := (p.extractLsb' 0 23).toNat

/-- The 24-bit significand of a normal number: 2^23 times `1 + fraction/2^23` (R42). -/
def binary32Significand (p : Word) : Nat := 8388608 + binary32Fraction p

/-- The binary32 number equal to `n`, exact for `n` below 2^24 (R100 (1), R101). -/
def binary32OfNat (n : Nat) : Word :=
  if n = 0 then 0
  else BitVec.ofNat 32 ((127 + n.log2) * 8388608 + (n * 2 ^ (23 - n.log2) - 8388608))

/-- One IEEE 754 division of a positive normal number or +0 by a positive normal number, rounded to
nearest, ties to even (R100 (2), R102). The exact quotient of the significands is scaled to lie in
[2^23, 2^24), rounded by its remainder, and the exponent follows. Overflow and underflow are left
out: the only dividends are 0 to 255 and the only divisor is 255.0, and none occurs (R103; log entry
14). -/
def binary32Div (a b : Word) : Word :=
  if a = 0 then 0
  else
    let sa := binary32Significand a
    let sb := binary32Significand b
    let exponent :=
      if sb ≤ sa then binary32Exponent a + 127 - binary32Exponent b
      else binary32Exponent a + 126 - binary32Exponent b
    let numerator := if sb ≤ sa then sa * 8388608 else sa * 16777216
    let q := numerator / sb
    let r := numerator % sb
    let rounded := if sb < 2 * r ∨ (2 * r = sb ∧ q % 2 = 1) then q + 1 else q
    BitVec.ofNat 32 (exponent * 8388608 + (rounded - 8388608))

/-- `DIVISOR`: 255.0 in binary32 (00_scope.md R9). -/
def divisor255 : Word := 0x437F0000

/-- The widening of the reference design: zero-extend the byte to 16 bits, then to 32 (R101). -/
def widenByte (b : Byte) : Word := (b.setWidth 16).setWidth 32

/-- `norm(b)`: the pattern of `b / 255.0` (R100). -/
def normByte (b : Byte) : Word := binary32Div (binary32OfNat (widenByte b).toNat) divisor255

/-- `q'` of R112, the rounded significand of `b/255`, for `b` from 1 to 254. -/
def formulaSignificand (b : Nat) : Nat :=
  let scaled := b * 2 ^ (32 - (b.log2 + 1))
  if 128 ≤ scaled % 255 then scaled / 255 + 1 else scaled / 255

/-- The integer formula of R112, for comparison with `norm`. -/
def normByFormula (b : Nat) : Nat :=
  if b = 0 then 0
  else if b = 255 then 0x3F800000
  else (118 + (b.log2 + 1)) * 2 ^ 23 + (formulaSignificand b - 2 ^ 23)

/-- One IEEE 754 multiplication of +0 or a positive normal number by a positive normal number, rounded
to nearest, ties to even. No command multiplies: R104 and R109 compare `norm` with products. -/
def binary32Mul (a b : Word) : Word :=
  if a = 0 then 0
  else
    let product := binary32Significand a * binary32Significand b
    let unit := if product < 2 ^ 47 then 2 ^ 23 else 2 ^ 24
    let exponent :=
      if product < 2 ^ 47 then binary32Exponent a + binary32Exponent b - 127
      else binary32Exponent a + binary32Exponent b - 126
    let q := product / unit
    let r := product % unit
    let rounded := if unit < 2 * r ∨ (2 * r = unit ∧ q % 2 = 1) then q + 1 else q
    BitVec.ofNat 32 (exponent * 8388608 + (rounded - 8388608))

/-- The binary32 number nearest to 1/255 (R104). -/
def reciprocal255 : Word := 0x3B808081

/-- The integer nearest to `factor` times the value of the pattern, halves upward, for a value below
2^24. -/
def nearestNat (p : Word) (factor : Nat) : Nat :=
  if p = 0 then 0
  else
    let scale := 2 ^ (150 - binary32Exponent p)
    (2 * (binary32Significand p * factor) + scale) / (2 * scale)

/-! ### Batches and lanes -/

/-- A batch through the unit: `out[k] = norm(in[k])` (R105). -/
def normalizeBatch (batch : List Byte) : List Word := batch.map normByte

/-- Each lane into two adjacent lanes (R110). -/
def duplicateLanes : List Word → List Word
  | [] => []
  | s :: rest => s :: s :: duplicateLanes rest

/-- The interleaved samples at even places, the U samples (R111). -/
def evenLanes : List Byte → List Byte
  | [] => []
  | [u] => [u]
  | u :: _ :: rest => u :: evenLanes rest

/-- The interleaved samples at odd places, the V samples (R111). -/
def oddLanes : List Byte → List Byte
  | [] => []
  | [_] => []
  | _ :: v :: rest => v :: oddLanes rest

/-- `n` bytes of a batch from `addr` upward. -/
def readBatch (m : Memory) : Nat → Nat → List Byte
  | _, 0 => []
  | addr, n + 1 => m.read addr :: readBatch m (addr + 1) n

/-- The lanes of a result written to consecutive addresses (R110). -/
def writeLanes : List Word → Nat → Memory → Memory
  | [], _, m => m
  | p :: rest, addr, m => writeLanes rest (addr + 4) (writeFloat m addr p)

end Sys2Proof.Machine
end

