-- ==== Sys2Proof/Machine/YPlane.lean ====
section
/-!
DEFINITION. Machine/YPlane.lean: the Y-Plane Converter and `Y_TO_HW` (41_y_plane.md).

Source samples are read in the region at acceptance, `frame`: a result is a function of it (R22), and
the source bytes are not written (R53, R56; DEDUCED, log entry 9).
-/

namespace Sys2Proof.Machine

/-- `count` samples from `src` upward become `count` floats from `dst` upward, same order (R120). -/
def convertSamples (frame : Memory) (src dst count : Nat) (m : Memory) : Memory :=
  forUpTo count (fun i m => writeFloat m (dst + 4 * i) (normByte (frame.read (src + i)))) m

/-- `Y_TO_HW srcOffset, dstOffset, sampleCount` (R120). -/
def execYToHw (srcOffset dstOffset sampleCount : Nat) (s : State) :
    Host.Outcome State Fault Refusal :=
  runCommand (.yToHw srcOffset dstOffset sampleCount)
    (fun mem => convertSamples mem srcOffset dstOffset sampleCount mem) s

end Sys2Proof.Machine
end

