-- ==== Sys2Proof/Machine/I420Chroma.lean ====
section
/-!
DEFINITION. Machine/I420Chroma.lean: the I420 Chroma Upsampler and `I420_TO_CHW` (43_i420_chroma.md).
-/

namespace Sys2Proof.Machine

/-- One output position of the sample in row `r`, column `c`: row `2r + dy`, column `2c + dx` of a
destination plane whose rows are `2*cols` floats (R160). -/
def i420WriteSample (frame : Memory) (pSrc stride cols pDst r c dy dx : Nat) (m : Memory) : Memory :=
  writeFloat m (pDst + 4 * ((2 * r + dy) * (2 * cols) + (2 * c + dx)))
    (normByte (frame.read (pSrc + r * stride + c)))

/-- The 2×2 block of a sample (R160). -/
def i420Block (frame : Memory) (pSrc stride cols pDst r c : Nat) (m : Memory) : Memory :=
  forUpTo 2 (fun dy m => forUpTo 2 (fun dx m =>
    i420WriteSample frame pSrc stride cols pDst r c dy dx m) m) m

/-- The I420 Chroma Upsampler on one plane (R160): each sample to a 2×2 block. -/
def i420Upsample (frame : Memory) (pSrc stride rows cols pDst : Nat) (m : Memory) : Memory :=
  forUpTo rows (fun r m => forUpTo cols (fun c m => i420Block frame pSrc stride cols pDst r c m) m) m

/-- One upsampled row of the reference sequence: batches of four samples, each doubled into eight
output columns (R161, R110). For `cols` divisible by 4. -/
def i420RowReference (frame : Memory) (rowSrc cols rowDst : Nat) (m : Memory) : Memory :=
  forUpTo (cols / 4) (fun g m =>
    writeLanes (duplicateLanes (normalizeBatch (readBatch frame (rowSrc + 4 * g) 4)))
      (rowDst + 4 * (8 * g)) m) m

/-- The reference sequence for one plane (R161): each row once, then copied to the row below. -/
def i420UpsampleReference (frame : Memory) (pSrc stride rows cols pDst : Nat) (m : Memory) :
    Memory :=
  forUpTo rows (fun r m =>
    let m := i420RowReference frame (pSrc + r * stride) cols (pDst + 4 * (2 * r * (2 * cols))) m
    memCopy m (pDst + 4 * ((2 * r + 1) * (2 * cols))) (pDst + 4 * (2 * r * (2 * cols)))
      (4 * (2 * cols))) m

/-- The whole conversion of an I420 frame: Y plane, U plane, V plane, with `P = width*height`,
`cw = width/2`, `ch = height/2` (R162). -/
def i420Frame (frame : Memory) (src dst width height : Nat) (m : Memory) : Memory :=
  i420Upsample frame (src + width * height + width * height / 4) (width / 2) (height / 2)
    (width / 2) (dst + 8 * (width * height))
    (i420Upsample frame (src + width * height) (width / 2) (height / 2) (width / 2)
      (dst + 4 * (width * height)) (convertSamples frame src dst (width * height) m))

/-- `I420_TO_CHW srcOffset, dstOffset, width, height` (R162). -/
def execI420ToChw (srcOffset dstOffset width height : Nat) (s : State) :
    Host.Outcome State Fault Refusal :=
  runCommand (.i420ToChw srcOffset dstOffset width height)
    (fun mem => i420Frame mem srcOffset dstOffset width height mem) s

end Sys2Proof.Machine
end

