-- ==== Sys2Proof/Machine/Nv12Chroma.lean ====
section
/-!
DEFINITION. Machine/Nv12Chroma.lean: the NV12 Chroma Upsampler and `NV12_TO_CHW` (42_nv12_chroma.md).
-/

namespace Sys2Proof.Machine

/-- One output position of the pair in chroma row `r`, column `c`: row `2r + dy`, column `2c + dx` of
both planes (R140). -/
def nv12WritePair (frame : Memory) (uvSrc uDst vDst width r c dy dx : Nat) (m : Memory) : Memory :=
  writeFloat
    (writeFloat m (uDst + 4 * ((2 * r + dy) * width + (2 * c + dx)))
      (normByte (frame.read (uvSrc + r * width + 2 * c))))
    (vDst + 4 * ((2 * r + dy) * width + (2 * c + dx)))
    (normByte (frame.read (uvSrc + r * width + 2 * c + 1)))

/-- The 2×2 block of a pair (R140). -/
def nv12Block (frame : Memory) (uvSrc uDst vDst width r c : Nat) (m : Memory) : Memory :=
  forUpTo 2 (fun dy m => forUpTo 2 (fun dx m =>
    nv12WritePair frame uvSrc uDst vDst width r c dy dx m) m) m

/-- The NV12 Chroma Upsampler (R140): each (U, V) pair to the 2×2 block of its own planes. -/
def nv12Upsample (frame : Memory) (uvSrc uDst vDst width lineWidthUV rows : Nat) (m : Memory) :
    Memory :=
  forUpTo rows (fun r m => forUpTo lineWidthUV (fun c m =>
    nv12Block frame uvSrc uDst vDst width r c m) m) m

/-- The reference sequence of the upsampler (R141) with the batches of R111: four bytes `U0 V0 U1 V1`
are separated, normalized and doubled into four output columns of each plane; a finished row is
copied to the row below. For a `width` divisible by 4. -/
def nv12UpsampleReference (frame : Memory) (uvSrc uDst vDst width rows : Nat) (m : Memory) :
    Memory :=
  forUpTo rows (fun r m =>
    let m := forUpTo (width / 4) (fun g m =>
      let batch := readBatch frame (uvSrc + r * width + 4 * g) 4
      let m := writeLanes (duplicateLanes (normalizeBatch (evenLanes batch)))
        (uDst + 4 * (2 * r * width + 4 * g)) m
      writeLanes (duplicateLanes (normalizeBatch (oddLanes batch)))
        (vDst + 4 * (2 * r * width + 4 * g)) m) m
    let m := memCopy m (uDst + 4 * ((2 * r + 1) * width)) (uDst + 4 * (2 * r * width)) (4 * width)
    memCopy m (vDst + 4 * ((2 * r + 1) * width)) (vDst + 4 * (2 * r * width)) (4 * width)) m

/-- The whole conversion of an NV12 frame, Y plane then chroma, with `P = width*height` (R142). -/
def nv12Frame (frame : Memory) (src dst width height : Nat) (m : Memory) : Memory :=
  nv12Upsample frame (src + width * height) (dst + 4 * (width * height))
    (dst + 8 * (width * height)) width (width / 2) (height / 2)
    (convertSamples frame src dst (width * height) m)

/-- `NV12_TO_CHW srcOffset, dstOffset, width, height` (R142). -/
def execNv12ToChw (srcOffset dstOffset width height : Nat) (s : State) :
    Host.Outcome State Fault Refusal :=
  runCommand (.nv12ToChw srcOffset dstOffset width height)
    (fun mem => nv12Frame mem srcOffset dstOffset width height mem) s

end Sys2Proof.Machine
end

