-- ==== Sys2Proof/Machine/TileExtractor.lean ====
section
/-!
DEFINITION. Machine/TileExtractor.lean: the Tile Extractor and `TILE_TO_CHW` (44_tile_extractor.md).
-/

namespace Sys2Proof.Machine

/-- The U plane of the frame starts after its Y plane (R186). -/
def tileUBase (src frameWidth frameHeight : Nat) : Nat := src + frameWidth * frameHeight

/-- The V plane of the frame starts after its U plane (R186). -/
def tileVBase (src frameWidth frameHeight : Nat) : Nat :=
  src + frameWidth * frameHeight + (frameWidth >>> 1) * (frameHeight >>> 1)

/-- The first sample of the tile in a chroma plane: column `x>>1`, row `y>>1` (R181). -/
def tileChromaCorner (planeBase x y frameWidth : Nat) : Nat :=
  planeBase + (y >>> 1) * (frameWidth >>> 1) + (x >>> 1)

/-- The Y sub-rectangle, row stride `frameWidth` (R180, R181). -/
def tileLuma (frame : Memory) (src dst x y width height frameWidth : Nat) (m : Memory) : Memory :=
  forUpTo height (fun j m =>
    forUpTo width (fun i m =>
      writeFloat m (dst + 4 * (j * width + i))
        (normByte (frame.read (src + (y + j) * frameWidth + (x + i))))) m) m

/-- The whole tile: the Y sub-rectangle, then the U and the V sub-rectangle through the I420 chroma
upsampler with stride `frameWidth>>1` (R180, R181). -/
def tileFrame (frame : Memory) (src dst x y width height frameWidth frameHeight : Nat)
    (m : Memory) : Memory :=
  i420Upsample frame (tileChromaCorner (tileVBase src frameWidth frameHeight) x y frameWidth)
    (frameWidth >>> 1) (height / 2) (width / 2) (dst + 8 * (width * height))
    (i420Upsample frame (tileChromaCorner (tileUBase src frameWidth frameHeight) x y frameWidth)
      (frameWidth >>> 1) (height / 2) (width / 2) (dst + 4 * (width * height))
      (tileLuma frame src dst x y width height frameWidth m))

/-- The luma walk of the reference traversal (R183): convert a row, then jump over the part of the
frame row outside the tile. -/
def walkLuma (frame : Memory) (width jump : Nat) : Nat → Nat → Nat → Memory → Memory
  | 0, _, _, m => m
  | rows + 1, src, dst, m =>
    walkLuma frame width jump rows (src + width + jump) (dst + 4 * width)
      (convertSamples frame src dst width m)

/-- The chroma walk of the reference traversal (R183): upsample a row, copy it to the row below, then
jump in the half-resolution plane. -/
def walkChroma (frame : Memory) (cols jump : Nat) : Nat → Nat → Nat → Memory → Memory
  | 0, _, _, m => m
  | rows + 1, src, dst, m =>
    walkChroma frame cols jump rows (src + cols + jump) (dst + 4 * (4 * cols))
      (memCopy (i420RowReference frame src cols dst m) (dst + 4 * (2 * cols)) dst (4 * (2 * cols)))

/-- The reference traversal of the tile (R183): a row at a time with a stride jump between rows, the Y
sub-plane, then the U sub-plane, then repositioned to the V sub-plane. -/
def tileFrameReference (frame : Memory)
    (src dst x y width height frameWidth frameHeight : Nat) (m : Memory) : Memory :=
  walkChroma frame (width / 2) ((frameWidth >>> 1) - width / 2) (height / 2)
    (tileChromaCorner (tileVBase src frameWidth frameHeight) x y frameWidth)
    (dst + 8 * (width * height))
    (walkChroma frame (width / 2) ((frameWidth >>> 1) - width / 2) (height / 2)
      (tileChromaCorner (tileUBase src frameWidth frameHeight) x y frameWidth)
      (dst + 4 * (width * height))
      (walkLuma frame width (frameWidth - width) height (src + y * frameWidth + x) dst m))

/-- `TILE_TO_CHW srcOffset, dstOffset, x, y, width, height, frameWidth, frameHeight` (R180). -/
def execTileToChw (srcOffset dstOffset x y width height frameWidth frameHeight : Nat) (s : State) :
    Host.Outcome State Fault Refusal :=
  runCommand (.tileToChw srcOffset dstOffset x y width height frameWidth frameHeight)
    (fun mem => tileFrame mem srcOffset dstOffset x y width height frameWidth frameHeight mem) s

end Sys2Proof.Machine
end

