-- ==== Sys2Proof/Machine/Dispatch.lean ====
section
/-!
DEFINITION. Machine/Dispatch.lean: one arm per command.
-/

namespace Sys2Proof.Machine

def exec (i : Instr) (s : State) : Host.Outcome State Fault Refusal :=
  match i with
  | .yToHw a b n => Sys2Proof.Machine.execYToHw a b n s
  | .nv12ToChw a b w h => Sys2Proof.Machine.execNv12ToChw a b w h s
  | .i420ToChw a b w h => Sys2Proof.Machine.execI420ToChw a b w h s
  | .tileToChw a b x y w h fw fh => Sys2Proof.Machine.execTileToChw a b x y w h fw fh s
  | .bilinearUpscale a b w h => Sys2Proof.Machine.execBilinearUpscale a b w h s

end Sys2Proof.Machine
end

