-- ==== Sys2Proof/Machine/HostPort.lean ====
section
/-!
DEFINITION. Machine/HostPort.lean: what the host can do to the machine between two steps of the engine
(20_memory.md R55, R63; 70_reset_and_hazards.md R250, R252, R262 to R269).
-/

namespace Sys2Proof.Machine

/-- The legal command that is running: status `BUSY` and a packet in the latches that decodes. -/
def runningCommand (s : State) : Option Instr :=
  match s.status with
  | .idle => none
  | .busy =>
    match decode (latchedPacket s) with
    | .legal i => some i
    | .illegal _ => none

/-- The address lies in the source or the output range of the packet's command; an illegal packet has
no ranges, since it touches no memory (R224). -/
def packetUses (p : Packet) (a : Nat) : Bool :=
  match decode p with
  | .legal i => spanHas (srcSpan i) a || spanHas (outSpan i) a
  | .illegal _ => false

/-- The address lies in the output range of the packet's command. -/
def packetWrites (p : Packet) (a : Nat) : Bool :=
  match decode p with
  | .legal i => spanHas (outSpan i) a
  | .illegal _ => false

/-- The host writes a byte of the source or output range of a call between its presentation and its
response (R63, duty R267). -/
def disturbsRunning (s : State) (a : Nat) : Bool :=
  decide (s.status = .busy) && packetUses (latchedPacket s) a

/-- A host read of `a` now returns an unspecified value. While the engine is `BUSY` it does where `a`
lies in the running command's output range, and for every `a` where that call's outcome is `UNSPEC`
(R222); every other byte is plain memory, the ranges of waiting packets too (R63). While it is `IDLE`
it does where `a` lies in the output range of a packet that is presented and not accepted yet (R266:
until the call returns). DESIGN CHOICE, log entry 10. -/
def readIsUnspecified (s : State) (a : Nat) : Bool :=
  match s.status with
  | .idle => s.cmdChan.any (fun p => packetWrites p.packet a)
  | .busy =>
    match runningCommand s with
    | none => false
    | some i => spanHas (outSpan i) a || !callOk i s

/-- The host presents a packet; it waits on the command channel (R73). -/
def hostPresent (p : Packet) (s : State) : State :=
  { s with cmdChan := s.cmdChan ++ [⟨p, false⟩] }

/-- The host writes a byte: plain memory (R45), and a disturbed call if the byte belongs to a call
that has not returned (R63, R267). -/
def hostWrite (a : Nat) (b : Byte) (s : State) : Host.Outcome State Fault Refusal :=
  if a < s.memSize then
    .next { s with
      mem := s.mem.write a b
      disturbed := s.disturbed || disturbsRunning s a
      cmdChan := s.cmdChan.map fun p => ⟨p.packet, p.disturbed || packetUses p.packet a⟩ }
  else .fault .hostAddressOutsideRegion

/-- The host reads a byte: the last value written (R45), or an unspecified value (R63). -/
def hostRead (a : Nat) (s : State) : Host.Outcome State Fault Refusal :=
  if a < s.memSize then
    if readIsUnspecified s a then
      .next { s with hostReads := s.hostReads ++ [Config.freeByte s.free a], free := s.free + 1 }
    else .next { s with hostReads := s.hostReads ++ [s.mem.read a] }
  else .fault .hostAddressOutsideRegion

/-- The host grows the region while no call is presented or running; existing bytes keep their
content and the new ones are unspecified until the host writes them (R253, R269). -/
def hostGrow (extra : Nat) (s : State) : Host.Outcome State Fault Refusal :=
  if s.status = .busy ∨ s.cmdChan ≠ [] then .refused .regionGrownDuringCall
  else if Config.addressSpace < s.memSize + extra then .refused .regionLargerThanAddressSpace
  else .next { s with
    mem := freeFill s.free s.memSize extra s.mem
    memSize := s.memSize + extra
    free := s.free + 1 }

/-- What a reset leaves of the region: all of it, except that a legal command that was running leaves
its output range unspecified, and the whole region if its outcome was `UNSPEC` (R33, R252, R222).
DESIGN CHOICE (log entry 21): a running call whose preconditions hold but which the host disturbed
counts as `UNSPEC` here too (R267, R14), although R252 by itself would spare the bytes outside its
output range. -/
def regionAfterReset (s : State) : State :=
  match runningCommand s with
  | none => s
  | some i =>
    if callOk i s then
      { s with
        mem := freeFill s.free (outSpan i).lo ((outSpan i).hi - (outSpan i).lo) s.mem
        free := s.free + 1 }
    else scrambleRegion s

/-- The reset input (R250, R33, R252): status `IDLE`, both channels empty, latches unspecified, no
response for the running command. -/
def hostReset (s : State) : State :=
  releaseLatches { regionAfterReset s with status := .idle, cmdChan := [], rspChan := [] }

end Sys2Proof.Machine
end

