-- ==== Sys2Proof/Machine/Step.lean ====
section
/-!
DEFINITION. Machine/Step.lean: one step of the machine. The engine and the host take turns; the list
`host` in the state says whose turn it is.
-/

namespace Sys2Proof.Machine

/-- The engine's turn: an `IDLE` engine accepts the oldest presented packet (R73), a `BUSY` engine
decodes its latches, runs the command to its end and answers (R56, R73, R80, R86; one step, log entry
8). -/
def engineStep (s : State) : Host.Outcome State Fault Refusal :=
  match s.status with
  | .idle => .next (acceptPacket s)
  | .busy =>
    match decode (latchedPacket s) with
    | .legal i => exec i s
    | .illegal _ => .next (raiseIllegalCommand s)

/-- One step. The host's next action happens; where the list says so, where it is empty, or where the
host waits for a response that is not there yet, the engine takes its turn (log entry 11). -/
def step (s : State) : Host.Outcome State Fault Refusal :=
  match s.host with
  | [] => engineStep s
  | .engineTurn :: rest => engineStep { s with host := rest }
  | .present p :: rest => .next (hostPresent p { s with host := rest })
  | .write a b :: rest => hostWrite a b { s with host := rest }
  | .read a :: rest => hostRead a { s with host := rest }
  | .takeResponse :: rest =>
    match s.rspChan with
    | [] => engineStep s
    | _ :: later => .next { s with rspChan := later, host := rest }
  | .grow extra :: rest => hostGrow extra { s with host := rest }
  | .assertReset :: rest => .next (hostReset { s with host := rest })

/-- The state with the packet of those bits accepted, so that the very next step runs it: the engine
runs what acceptance put into its latches (R73; log entry 6). -/
def State.withFetchWord (s : State) (nbits w : Nat) : State :=
  latchPacket (tablePacket nbits w) false { s with host := .engineTurn :: s.host }

end Sys2Proof.Machine
end

