-- ==== Sys2Proof/Safety.lean ====
section
/-!
DEFINITION. Safety.lean: the terms the claims use: the invariant of the machine, what it means that a call
was answered, what a command leaves alone, and the value of every element of a result.
-/

namespace Sys2Proof.Machine

/-- What every state a run reaches satisfies: the region is in canonical form and lies inside
`MEM_SIZE` (R21), `MEM_SIZE` is from 1 to 2^32 (R9), and only a running call can be disturbed. -/
def stateInv (s : State) : Bool :=
  s.mem.wf && s.mem.within s.memSize && decide (1 ≤ s.memSize)
    && decide (s.memSize ≤ Config.addressSpace) && (decide (s.status = .busy) || !s.disturbed)

/-- The call that ran in `s` has ended in `t` with response word `rsp` (R86): status `IDLE`, the
response delivered behind the ones not yet taken, and nothing else of the interface touched. -/
def Answered (s t : State) (rsp : Word) : Prop :=
  t.status = .idle ∧ t.rspChan = s.rspChan ++ [rsp] ∧ t.disturbed = false ∧
    t.memSize = s.memSize ∧ t.cmdChan = s.cmdChan ∧ t.host = s.host ∧ t.hostReads = s.hostReads

/-- Every byte outside `[lo, hi)` reads in `m'` as in `m`. -/
def SameOutside (lo hi : Nat) (m m' : Memory) : Prop :=
  ∀ a, (a < lo ∨ hi ≤ a) → m'.read a = m.read a

/-- Every byte of `[lo, hi)` reads in `m'` as in `m`. -/
def SameInside (lo hi : Nat) (m m' : Memory) : Prop :=
  ∀ a, lo ≤ a → a < hi → m'.read a = m.read a

/-- The region after an `OK` call, from the region at acceptance. -/
def commandResult : Instr → Memory → Memory
  | .yToHw src dst n => fun m => convertSamples m src dst n m
  | .nv12ToChw src dst w h => fun m => nv12Frame m src dst w h m
  | .i420ToChw src dst w h => fun m => i420Frame m src dst w h m
  | .tileToChw src dst x y w h fw fh => fun m => tileFrame m src dst x y w h fw fh m
  | .bilinearUpscale src dst w h => fun m => upscaleChannel m src dst w h m

/-- Element `(j, i)` of plane `c` (0 Y, 1 U, 2 V) of a CHW tensor of `w` columns and `h` rows at `d`
(R15, R48). -/
def chwElement (m : Memory) (d w h c j i : Nat) : Word :=
  readFloat m (d + 4 * (c * (w * h)) + 4 * (j * w + i))

/-- 2^150 times the value of a binary32 pattern with sign 0 and an exponent below 255 (R42; exponent 0
is zero and the subnormal numbers). -/
def binary32Scaled (p : Word) : Nat :=
  if binary32Exponent p = 0 then 2 * binary32Fraction p
  else binary32Significand p * 2 ^ binary32Exponent p

/-- 255 * 2^150 times the distance of the value of a pattern from `b/255`. -/
def distanceFromQuotient (p : Word) (b : Byte) : Nat :=
  ((binary32Scaled p * 255 : Int) - b.toNat * 2 ^ 150).natAbs

/-- The next action the state provides for is the engine's (R73): nothing is left for the host to do,
the list says so, or the host waits for a response that is not there. -/
def engineIsNext (s : State) : Bool :=
  match s.host with
  | [] => true
  | .engineTurn :: _ => true
  | .takeResponse :: _ => s.rspChan.isEmpty
  | _ => false

/-- The state the engine's turn starts from: the entry that gave it the turn is used up, a wait for a
response is not. -/
def engineState (s : State) : State :=
  match s.host with
  | .engineTurn :: rest => { s with host := rest }
  | _ => s

end Sys2Proof.Machine
end

