-- ==== Sys2Proof/Certificates/Slice0/Obligations.lean ====
section
/-!
DEFINITION. Certificates/Slice0/Obligations.lean: the statements for the provers, from the numbered rules
of spec/.
-/

open Sys2Proof Sys2Proof.Machine

/-! ### Encoding (30_encoding.md) -/

/-- R71, R72, R74, R82: no bit of an operand is lost between the encoder and the decoder. -/
def Obligations.DecodeEncodeEveryCommand : Prop :=
  ∀ i : Instr, i.wf = true → decode (encode i) = .legal i

/-- R81: encoding a decoded command gives back the packet, two different legal packets are two
different commands, and opcode 0 and opcodes 6 to 255 are illegal. -/
def Obligations.LegalPacketIsEncodingOfItsCommand : Prop :=
  (∀ (p : Packet) (i : Instr), decode p = .legal i → i.wf = true ∧ encode i = p) ∧
  (∀ (p q : Packet) (i : Instr), decode p = .legal i → decode q = .legal i → p = q) ∧
  (∀ p : Packet, (p.opcode = 0 ∨ 6 ≤ p.opcode.toNat) → ∃ why, decode p = .illegal why)

/-- R80: a packet is legal if and only if (a) `W0[31:8]` is 0, (b) `W0[7:0]` is 1 to 5, (c) the operand
words its format does not use are 0; any other packet is answered 1 and touches no memory. -/
def Obligations.PacketLegalExactlyWhen : Prop :=
  (∀ p : Packet, (∃ i, decode p = .legal i) ↔
    (p.w0.extractLsb' 8 24 = 0 ∧
      (1 ≤ (p.w0.extractLsb' 0 8).toNat ∧ (p.w0.extractLsb' 0 8).toNat ≤ 5) ∧
      (p.w0 = 1 → p.w4 = 0 ∧ p.w5 = 0 ∧ p.w6 = 0 ∧ p.w7 = 0 ∧ p.w8 = 0) ∧
      ((p.w0 = 2 ∨ p.w0 = 3 ∨ p.w0 = 5) → p.w5 = 0 ∧ p.w6 = 0 ∧ p.w7 = 0 ∧ p.w8 = 0))) ∧
  (∀ s : State, s.status = .busy → engineIsNext s = true →
    (¬ ∃ i, decode (latchedPacket s) = .legal i) →
    ∃ t, step s = .next t ∧ Answered (engineState s) t 1 ∧ t.mem = s.mem)

/-- R74 with the formats of R72: each header value selects its command, operand `i` is the whole of
word `W(i+1)`, and a packet that decodes to the command has exactly that header. -/
def Obligations.HeaderSelectsCommand : Prop :=
  (∀ a b c d e f g h : Word,
    decode ⟨0x00000001, a, b, c, 0, 0, 0, 0, 0⟩ = .legal (.yToHw a.toNat b.toNat c.toNat) ∧
    decode ⟨0x00000002, a, b, c, d, 0, 0, 0, 0⟩ =
      .legal (.nv12ToChw a.toNat b.toNat c.toNat d.toNat) ∧
    decode ⟨0x00000003, a, b, c, d, 0, 0, 0, 0⟩ =
      .legal (.i420ToChw a.toNat b.toNat c.toNat d.toNat) ∧
    decode ⟨0x00000004, a, b, c, d, e, f, g, h⟩ =
      .legal (.tileToChw a.toNat b.toNat c.toNat d.toNat e.toNat f.toNat g.toNat h.toNat) ∧
    decode ⟨0x00000005, a, b, c, d, 0, 0, 0, 0⟩ =
      .legal (.bilinearUpscale a.toNat b.toNat c.toNat d.toNat)) ∧
  (∀ p : Packet,
    (∀ a b n, decode p = .legal (.yToHw a b n) → p.w0 = 0x00000001) ∧
    (∀ a b w h, decode p = .legal (.nv12ToChw a b w h) → p.w0 = 0x00000002) ∧
    (∀ a b w h, decode p = .legal (.i420ToChw a b w h) → p.w0 = 0x00000003) ∧
    (∀ a b x y w h fw fh, decode p = .legal (.tileToChw a b x y w h fw fh) → p.w0 = 0x00000004) ∧
    (∀ a b w h, decode p = .legal (.bilinearUpscale a b w h) → p.w0 = 0x00000005))

/-- R87: the worked encodings, word for word, in both directions. -/
def Obligations.WorkedEncodingsDecode : Prop :=
  decode ⟨0x00000001, 0x00000010, 0x00000100, 0x00000008, 0, 0, 0, 0, 0⟩
    = .legal (.yToHw 0x10 0x100 8) ∧
  encode (.yToHw 0x10 0x100 8)
    = ⟨0x00000001, 0x00000010, 0x00000100, 0x00000008, 0, 0, 0, 0, 0⟩ ∧
  decode ⟨0x00000004, 0x00000000, 0x00000400, 0x00000004, 0x00000002, 0x00000008, 0x00000002,
    0x00000010, 0x00000004⟩ = .legal (.tileToChw 0x0 0x400 4 2 8 2 16 4) ∧
  encode (.tileToChw 0x0 0x400 4 2 8 2 16 4)
    = ⟨0x00000004, 0x00000000, 0x00000400, 0x00000004, 0x00000002, 0x00000008, 0x00000002,
      0x00000010, 0x00000004⟩ ∧
  (∃ why, decode ⟨0x00000001, 0x00000010, 0x00000100, 0x00000008, 0x00000001, 0, 0, 0, 0⟩
    = .illegal why) ∧
  (∀ a b c d e f g h : Word,
    (∃ why, decode ⟨0x00000000, a, b, c, d, e, f, g, h⟩ = .illegal why) ∧
    (∃ why, decode ⟨0x00000006, a, b, c, d, e, f, g, h⟩ = .illegal why) ∧
    (∃ why, decode ⟨0x00000101, a, b, c, d, e, f, g, h⟩ = .illegal why))

/-- R71: the packet and its 288-bit vector `W8 || ... || W0` are the same thing, so a row of the opcode
table, read as one number, decodes to its command. -/
def Obligations.PacketIsIts288Bits : Prop :=
  (∀ p : Packet, Packet.ofBits p.toBits = p) ∧
  (∀ v : BitVec 288, (Packet.ofBits v).toBits = v) ∧
  (∀ i : Instr, i.wf = true → decodeTableWord 288 (encode i).toBits.toNat = some i)

/-! ### Acceptance, running, response (R23, R73, R86) -/

/-- R73: an `IDLE` engine accepts the oldest presented packet: opcode latch `W0[7:0]`, operand latches
`W1` to `W8`, status `BUSY`. The header's other bits are latched too (log entry 5). -/
def Obligations.IdleEngineAcceptsOldestPacket : Prop :=
  ∀ (s : State) (p : Presented) (rest : List Presented),
    s.status = .idle → s.cmdChan = p :: rest → engineIsNext s = true →
    ∃ t, step s = .next t ∧ t.status = .busy ∧ t.opcode = p.packet.w0.extractLsb' 0 8 ∧
      t.x[0] = p.packet.w1 ∧ t.x[1] = p.packet.w2 ∧ t.x[2] = p.packet.w3 ∧ t.x[3] = p.packet.w4 ∧
      t.x[4] = p.packet.w5 ∧ t.x[5] = p.packet.w6 ∧ t.x[6] = p.packet.w7 ∧ t.x[7] = p.packet.w8 ∧
      latchedPacket t = p.packet ∧ t.disturbed = p.disturbed ∧ t.cmdChan = rest ∧
      t.mem = s.mem ∧ t.rspChan = s.rspChan ∧ t.memSize = s.memSize

/-- R73: no packet is dropped, reordered or merged. A packet the host presents stands behind the
waiting ones, whatever the status. Over every other step but a reset the waiting packets stay as they
are, or, on the turn of an `IDLE` engine, the oldest goes into its latches and the others stay. -/
def Obligations.PacketsNeverDroppedOrReordered : Prop :=
  ∀ s t : State, step s = .next t →
    (∀ p rest, s.host = .present p :: rest →
      t.cmdChan.map Presented.packet = s.cmdChan.map Presented.packet ++ [p]) ∧
    ((∀ p rest, s.host ≠ .present p :: rest) → (∀ rest, s.host ≠ .assertReset :: rest) →
      t.cmdChan.map Presented.packet = s.cmdChan.map Presented.packet ∨
      (engineIsNext s = true ∧ s.status = .idle ∧ t.status = .busy ∧
        s.cmdChan.map Presented.packet = latchedPacket t :: t.cmdChan.map Presented.packet))

/-- R70, R86, R255: no response is lost or reordered. When the host takes a response it takes exactly
the oldest one, and nothing else changes; with none there it goes on waiting. Over every other step
but a reset the responses stay as they are, or, on the turn of a `BUSY` engine, one is delivered
behind them: 0 for a legal command, 1 for an illegal packet. That `takeResponse` waits is log entry
11. -/
def Obligations.ResponsesNeverLostOrReordered : Prop :=
  (∀ (s : State) (r : Word) (later : List Word) (rest : List HostAction),
    s.host = .takeResponse :: rest → s.rspChan = r :: later →
    step s = .next { s with rspChan := later, host := rest }) ∧
  (∀ (s t : State) (rest : List HostAction), step s = .next t →
    s.host = .takeResponse :: rest → s.rspChan = [] → t.host = s.host) ∧
  (∀ s t : State, step s = .next t →
    (∀ rest, s.host = .takeResponse :: rest → s.rspChan = []) →
    (∀ rest, s.host ≠ .assertReset :: rest) →
    (t.rspChan = s.rspChan ∧ (s.status = .busy → t.status = .busy)) ∨
    (engineIsNext s = true ∧ s.status = .busy ∧ t.status = .idle ∧
      ((∃ i, decode (latchedPacket s) = .legal i) → t.rspChan = s.rspChan ++ [0]) ∧
      ((∃ why, decode (latchedPacket s) = .illegal why) → t.rspChan = s.rspChan ++ [1])))

/-- R23: the engine becomes `BUSY` only by accepting a presented packet, and `IDLE` again only by
delivering a response, 0 or 1, or by a reset (R252). -/
def Obligations.StatusChangesOnlyByAcceptanceAndResponse : Prop :=
  ∀ s t : State, step s = .next t →
    (s.status = .idle → t.status = .busy →
      ∃ p rest, s.cmdChan = p :: rest ∧ latchedPacket t = p.packet) ∧
    (s.status = .busy → t.status = .idle →
      (∃ rsp : Word, (rsp = 0 ∨ rsp = 1) ∧ t.rspChan = s.rspChan ++ [rsp]) ∨
      (∃ rest, s.host = .assertReset :: rest))

/-- R73, R56: the engine's turn is `exec` of the command in the latches when it is `BUSY`, and nothing
when it is `IDLE` and no packet is presented. -/
def Obligations.StepRunsLatchedCommand : Prop :=
  (∀ (s : State) (i : Instr), s.status = .busy → decode (latchedPacket s) = .legal i →
    engineIsNext s = true → step s = exec i (engineState s)) ∧
  (∀ s : State, s.status = .idle → s.cmdChan = [] → engineIsNext s = true →
    step s = .next (engineState s))

/-- The very next step runs the packet that `withFetchWord` places: the model's way of loading a
command (log entry 6). -/
def Obligations.FetchedWordRunsNext : Prop :=
  ∀ (s : State) (p : Packet) (i : Instr), decode p = .legal i →
    step (s.withFetchWord 288 p.toBits.toNat) = exec i (latchPacket p false s)

/-- R224: an illegal packet: no memory write; no memory read either, since what happens is the same
whatever the region holds; response word 1, `IDLE`, nothing recorded. It is the only condition
reported: no legal command is answered anything but 0. -/
def Obligations.IllegalPacketAnsweredOne : Prop :=
  (∀ (s : State) (why : IllegalPacket), s.status = .busy →
    decode (latchedPacket s) = .illegal why → engineIsNext s = true →
    ∃ t, step s = .next t ∧ Answered (engineState s) t 0x00000001 ∧ t.mem = s.mem ∧
      ∀ m : Memory, step { s with mem := m } = .next { t with mem := m }) ∧
  (∀ (i : Instr) (s t : State), exec i s = .next t → t.rspChan = s.rspChan ++ [0x00000000])

/-- R220: every legal command ends with response code 0, whatever its operands and whatever is in
memory. -/
def Obligations.EveryLegalCommandAnsweredZero : Prop :=
  ∀ (i : Instr) (s : State), ∃ t, exec i s = .next t ∧ Answered s t 0x00000000

/-- R259, R220: the engine's turn always has a next state. -/
def Obligations.EngineTurnNeverStops : Prop :=
  ∀ s : State, engineIsNext s = true → ∃ t, step s = .next t

/-- R259: every call ends. A packet presented to an `IDLE` engine with nothing waiting is accepted and
answered, 0 if it is legal and 1 if it is not, after three steps. -/
def Obligations.PresentedPacketIsAnswered : Prop :=
  ∀ (s : State) (p : Packet), s.status = .idle → s.cmdChan = [] → s.host = [.present p] →
    ∃ t, Host.Core.run Sys2Proof.core 3 s = .next t ∧ t.status = .idle ∧ t.cmdChan = [] ∧
      t.host = [] ∧
      ((∃ i, decode p = .legal i) → t.rspChan = s.rspChan ++ [0]) ∧
      ((∃ why, decode p = .illegal why) → t.rspChan = s.rspChan ++ [1] ∧ t.mem = s.mem)

/-- R24, R33: a call leaves the operand latches undefined. The model's choice (log entry 4): they take
the free words of one draw, and the draw is used up. -/
def Obligations.CallReleasesLatches : Prop :=
  ∀ (i : Instr) (s : State), ∃ t, exec i s = .next t ∧ s.free < t.free ∧
    ∀ k (h : k < 8), t.x[k] = Config.freeWord (t.free - 1) k

/-! ### The normalizer (40_normalizer.md) -/

/-- R102: `norm(b)` is the binary32 number nearest to `b/255`, and no tie occurs: every other finite
number with sign 0 is strictly farther from `b/255`. (A number with sign 1 is farther still, or is
-0.0, which R103 excludes.) -/
def Obligations.NormIsNearestBinary32 : Prop :=
  ∀ b : Byte, (normByte b).extractLsb' 31 1 = 0 ∧ binary32Exponent (normByte b) < 255 ∧
    ∀ p : Word, p.extractLsb' 31 1 = 0 → binary32Exponent p < 255 → p ≠ normByte b →
      distanceFromQuotient (normByte b) b < distanceFromQuotient p b

/-- R112: the integer formula agrees with the division for all 256 inputs, and its `q'` is a 24-bit
significand. -/
def Obligations.NormAgreesWithIntegerFormula : Prop :=
  (∀ b : Byte, (normByte b).toNat = normByFormula b.toNat) ∧
  (∀ b : Nat, 1 ≤ b → b ≤ 254 → 2 ^ 23 ≤ formulaSignificand b ∧ formulaSignificand b < 2 ^ 24)

/-- R103: the fixed results; strictly increasing, as patterns and as numbers; from 0 to 1, with 1/255
the smallest non-zero result; no NaN, infinity, subnormal or negative zero. -/
def Obligations.NormIsIncreasingInUnitInterval : Prop :=
  normByte 0 = 0x00000000 ∧ normByte 255 = 0x3F800000 ∧ normByte 1 = 0x3B808081 ∧
  binary32Scaled 0x3F800000 = 2 ^ 150 ∧
  (∀ a b : Byte, a.toNat < b.toNat → (normByte a).toNat < (normByte b).toNat ∧
    binary32Scaled (normByte a) < binary32Scaled (normByte b)) ∧
  (∀ b : Byte, (normByte b).extractLsb' 31 1 = 0 ∧
    binary32Scaled (normByte b) ≤ binary32Scaled 0x3F800000 ∧
    (b ≠ 0 → 0 < binary32Exponent (normByte b) ∧ binary32Exponent (normByte b) < 255 ∧
      (normByte 1).toNat ≤ (normByte b).toNat))

/-- R104: `norm` is not the product with the binary32 number nearest to 1/255: the two differ for 126
of the 256 inputs, the first of them 3, 6, 7, 12, 13, 14 and 15, each time by one unit in the last
place. -/
def Obligations.NormIsNotReciprocalProduct : Prop :=
  (∀ p : Word, p.extractLsb' 31 1 = 0 → binary32Exponent p < 255 → p ≠ reciprocal255 →
    distanceFromQuotient reciprocal255 1 < distanceFromQuotient p 1) ∧
  ((List.range 256).filter fun b =>
    binary32Mul (binary32OfNat b) reciprocal255 ≠ normByte (BitVec.ofNat 8 b)).length = 126 ∧
  (((List.range 256).filter fun b =>
    binary32Mul (binary32OfNat b) reciprocal255 ≠ normByte (BitVec.ofNat 8 b)).take 7)
    = [3, 6, 7, 12, 13, 14, 15] ∧
  (∀ b : Byte, binary32Mul (binary32OfNat b.toNat) reciprocal255 = normByte b ∨
    (binary32Mul (binary32OfNat b.toNat) reciprocal255).toNat = (normByte b).toNat + 1 ∨
    (binary32Mul (binary32OfNat b.toNat) reciprocal255).toNat + 1 = (normByte b).toNat)

/-- R109: multiplying by 255 and rounding recovers the byte, difference 0, whether the product is taken
exactly or in binary32. -/
def Obligations.NormLeftInverse : Prop :=
  ∀ b : Byte, nearestNat (normByte b) 255 = b.toNat ∧
    nearestNat (binary32Mul (normByte b) divisor255) 1 = b.toNat

/-- R106, R110, R111: lanes are independent, a batch of four lanes is doubled lane by lane, and an
NV12 batch separates into its U pair and its V pair. -/
def Obligations.LaneOperations : Prop :=
  (∀ xs ys : List Byte, normalizeBatch (xs ++ ys) = normalizeBatch xs ++ normalizeBatch ys) ∧
  (∀ (xs : List Byte) (k : Nat) (h : k < xs.length),
    (normalizeBatch xs)[k]? = some (normByte xs[k])) ∧
  (∀ s0 s1 s2 s3 : Word, duplicateLanes [s0, s1, s2, s3] = [s0, s0, s1, s1, s2, s2, s3, s3]) ∧
  (∀ u0 v0 u1 v1 : Byte, evenLanes [u0, v0, u1, v1] = [u0, u1] ∧
    oddLanes [u0, v0, u1, v1] = [v0, v1])

/-! ### The commands -/

/-- R120: `Y_TO_HW` with its preconditions true. -/
def Obligations.YToHwResult : Prop :=
  ∀ (s : State) (src dst n : Nat), s.mem.wf = true → s.disturbed = false →
    n % 4 = 0 → 1 ≤ n → src + n ≤ s.memSize → dst + 4 * n ≤ s.memSize →
    (src + n ≤ dst ∨ dst + 4 * n ≤ src) →
    ∃ t, exec (.yToHw src dst n) s = .next t ∧ Answered s t 0 ∧
      (∀ k, k < n → readFloat t.mem (dst + 4 * k) = normByte (s.mem.read (src + k))) ∧
      SameOutside dst (dst + 4 * n) s.mem t.mem

/-- R142: `NV12_TO_CHW` with its preconditions true, closed form. -/
def Obligations.Nv12ToChwResult : Prop :=
  ∀ (s : State) (src dst w h : Nat), s.mem.wf = true → s.disturbed = false →
    w % 4 = 0 → h % 2 = 0 → 1 ≤ w → 1 ≤ h →
    src + w * h + w * h / 2 ≤ s.memSize → dst + 12 * (w * h) ≤ s.memSize →
    (src + w * h + w * h / 2 ≤ dst ∨ dst + 12 * (w * h) ≤ src) →
    ∃ t, exec (.nv12ToChw src dst w h) s = .next t ∧ Answered s t 0 ∧
      (∀ j i, j < h → i < w →
        chwElement t.mem dst w h 0 j i = normByte (s.mem.read (src + j * w + i)) ∧
        chwElement t.mem dst w h 1 j i =
          normByte (s.mem.read (src + w * h + (j >>> 1) * w + 2 * (i >>> 1))) ∧
        chwElement t.mem dst w h 2 j i =
          normByte (s.mem.read (src + w * h + (j >>> 1) * w + 2 * (i >>> 1) + 1))) ∧
      SameOutside dst (dst + 12 * (w * h)) s.mem t.mem

/-- R162: `I420_TO_CHW` with its preconditions true, closed form. -/
def Obligations.I420ToChwResult : Prop :=
  ∀ (s : State) (src dst w h : Nat), s.mem.wf = true → s.disturbed = false →
    w % 8 = 0 → h % 2 = 0 → 1 ≤ w → 1 ≤ h →
    src + w * h + w * h / 2 ≤ s.memSize → dst + 12 * (w * h) ≤ s.memSize →
    (src + w * h + w * h / 2 ≤ dst ∨ dst + 12 * (w * h) ≤ src) →
    ∃ t, exec (.i420ToChw src dst w h) s = .next t ∧ Answered s t 0 ∧
      (∀ j i, j < h → i < w →
        chwElement t.mem dst w h 0 j i = normByte (s.mem.read (src + j * w + i)) ∧
        chwElement t.mem dst w h 1 j i =
          normByte (s.mem.read (src + w * h + (j >>> 1) * (w / 2) + (i >>> 1))) ∧
        chwElement t.mem dst w h 2 j i =
          normByte (s.mem.read (src + w * h + w * h / 4 + (j >>> 1) * (w / 2) + (i >>> 1)))) ∧
      SameOutside dst (dst + 12 * (w * h)) s.mem t.mem

/-- R180, R181, R186: `TILE_TO_CHW` with its preconditions true, closed form; any `y` (R185). -/
def Obligations.TileToChwResult : Prop :=
  ∀ (s : State) (src dst x y w h fw fh : Nat), s.mem.wf = true → s.disturbed = false →
    x % 4 = 0 → w % 8 = 0 → h % 2 = 0 → fw % 2 = 0 → fh % 2 = 0 → x + w ≤ fw → y + h ≤ fh →
    1 ≤ w → 1 ≤ h → 1 ≤ fw → 1 ≤ fh →
    src + fw * fh + fw * fh / 2 ≤ s.memSize → dst + 12 * (w * h) ≤ s.memSize →
    (src + fw * fh + fw * fh / 2 ≤ dst ∨ dst + 12 * (w * h) ≤ src) →
    ∃ t, exec (.tileToChw src dst x y w h fw fh) s = .next t ∧ Answered s t 0 ∧
      (∀ j i, j < h → i < w →
        chwElement t.mem dst w h 0 j i = normByte (s.mem.read (src + (y + j) * fw + x + i)) ∧
        chwElement t.mem dst w h 1 j i =
          normByte (s.mem.read (src + fw * fh + ((y >>> 1) + (j >>> 1)) * (fw >>> 1)
            + (x >>> 1) + (i >>> 1))) ∧
        chwElement t.mem dst w h 2 j i =
          normByte (s.mem.read (src + fw * fh + (fw >>> 1) * (fh >>> 1)
            + ((y >>> 1) + (j >>> 1)) * (fw >>> 1) + (x >>> 1) + (i >>> 1)))) ∧
      SameOutside dst (dst + 12 * (w * h)) s.mem t.mem

/-- R200, R201, R203: `BILINEAR_UPSCALE` with its preconditions true: the four output bytes of every
source pixel, neighbours clamped at the right and bottom edges. -/
def Obligations.BilinearUpscaleResult : Prop :=
  ∀ (s : State) (src dst w h : Nat), s.mem.wf = true → s.disturbed = false →
    1 ≤ w → 1 ≤ h → src + w * h ≤ s.memSize → dst + 4 * (w * h) ≤ s.memSize →
    (src + w * h ≤ dst ∨ dst + 4 * (w * h) ≤ src) →
    ∃ t, exec (.bilinearUpscale src dst w h) s = .next t ∧ Answered s t 0 ∧
      (∀ y x, y < h → x < w →
        ∀ tl tr bl br : Byte,
          tl = s.mem.read (src + y * w + x) →
          tr = s.mem.read (src + y * w + min (x + 1) (w - 1)) →
          bl = s.mem.read (src + min (y + 1) (h - 1) * w + x) →
          br = s.mem.read (src + min (y + 1) (h - 1) * w + min (x + 1) (w - 1)) →
          t.mem.read (dst + (2 * y) * (2 * w) + 2 * x) = tl ∧
          t.mem.read (dst + (2 * y) * (2 * w) + 2 * x + 1) = roundAvg tl tr ∧
          t.mem.read (dst + (2 * y + 1) * (2 * w) + 2 * x) = roundAvg tl bl ∧
          t.mem.read (dst + (2 * y + 1) * (2 * w) + 2 * x + 1)
            = roundAvg (roundAvg tl tr) (roundAvg bl br)) ∧
      SameOutside dst (dst + 4 * (w * h)) s.mem t.mem

/-- R53: an `OK` command changes exactly the bytes of its output range, all of them: no other byte
changes, the source range is unchanged, and what the output range held before does not matter. -/
def Obligations.CommandsWriteExactlyTheirOutput : Prop :=
  ∀ (i : Instr) (s : State), s.mem.wf = true → callOk i s = true →
    ∃ t, exec i s = .next t ∧
      SameOutside (outSpan i).lo (outSpan i).hi s.mem t.mem ∧
      SameInside (srcSpan i).lo (srcSpan i).hi s.mem t.mem ∧
      ∀ m : Memory, m.wf = true → SameInside (srcSpan i).lo (srcSpan i).hi s.mem m →
        ∃ t', exec i { s with mem := m } = .next t' ∧
          SameInside (outSpan i).lo (outSpan i).hi t.mem t'.mem

/-- R22: the result of an `OK` call is a function of the packet and of `MEM` at acceptance and of
nothing else: not of the latches, the channels, or how many calls or resets came before. -/
def Obligations.ResultDependsOnPacketAndMemory : Prop :=
  ∀ (i : Instr) (s s' : State), callOk i s = true → callOk i s' = true → s.mem = s'.mem →
    ∃ t t', exec i s = .next t ∧ exec i s' = .next t' ∧ t.mem = t'.mem

/-- R14, R49 to R51, R120, R142, R162, R180, R200: when the outcome of a command is `OK`, operand by
operand. -/
def Obligations.OutcomeOkExactlyWhen : Prop :=
  ∀ (s : State), s.disturbed = false →
    (∀ src dst n : Nat, callOk (.yToHw src dst n) s = true ↔
      n % 4 = 0 ∧ 1 ≤ n ∧ src + n ≤ s.memSize ∧ dst + 4 * n ≤ s.memSize ∧
      (src + n ≤ dst ∨ dst + 4 * n ≤ src)) ∧
    (∀ src dst w h : Nat, callOk (.nv12ToChw src dst w h) s = true ↔
      w % 4 = 0 ∧ h % 2 = 0 ∧ 1 ≤ w ∧ 1 ≤ h ∧
      src + w * h + w * h / 2 ≤ s.memSize ∧ dst + 12 * (w * h) ≤ s.memSize ∧
      (src + w * h + w * h / 2 ≤ dst ∨ dst + 12 * (w * h) ≤ src)) ∧
    (∀ src dst w h : Nat, callOk (.i420ToChw src dst w h) s = true ↔
      w % 8 = 0 ∧ h % 2 = 0 ∧ 1 ≤ w ∧ 1 ≤ h ∧
      src + w * h + w * h / 2 ≤ s.memSize ∧ dst + 12 * (w * h) ≤ s.memSize ∧
      (src + w * h + w * h / 2 ≤ dst ∨ dst + 12 * (w * h) ≤ src)) ∧
    (∀ src dst x y w h fw fh : Nat, callOk (.tileToChw src dst x y w h fw fh) s = true ↔
      x % 4 = 0 ∧ w % 8 = 0 ∧ h % 2 = 0 ∧ fw % 2 = 0 ∧ fh % 2 = 0 ∧ x + w ≤ fw ∧ y + h ≤ fh ∧
      1 ≤ w ∧ 1 ≤ h ∧ 1 ≤ fw ∧ 1 ≤ fh ∧
      src + fw * fh + fw * fh / 2 ≤ s.memSize ∧ dst + 12 * (w * h) ≤ s.memSize ∧
      (src + fw * fh + fw * fh / 2 ≤ dst ∨ dst + 12 * (w * h) ≤ src)) ∧
    (∀ src dst w h : Nat, callOk (.bilinearUpscale src dst w h) s = true ↔
      1 ≤ w ∧ 1 ≤ h ∧ src + w * h ≤ s.memSize ∧ dst + 4 * (w * h) ≤ s.memSize ∧
      (src + w * h ≤ dst ∨ dst + 4 * (w * h) ≤ src))

/-- R14, R222: a legal command with a false precondition still completes, with response code 0, and
every byte of the region is unspecified. The model's form of it (log entry 1): the free bytes of one
draw, which no proof can see. -/
def Obligations.UnspecCallLeavesRegionFree : Prop :=
  ∀ (i : Instr) (s : State), callOk i s = false →
    ∃ t, exec i s = .next t ∧ Answered s t 0 ∧ s.free < t.free ∧
      ∀ a, a < s.memSize → t.mem.read a = Config.freeByte s.free a

/-- R144: constant chroma over each 2×2 luma block, equal to the block's single (U, V) pair. -/
def Obligations.Nv12ChromaConstantOnBlocks : Prop :=
  ∀ (s : State) (src dst w h : Nat), s.mem.wf = true →
    callOk (.nv12ToChw src dst w h) s = true →
    ∃ t, exec (.nv12ToChw src dst w h) s = .next t ∧
      ∀ j i, j < h → i < w →
        chwElement t.mem dst w h 1 j i = chwElement t.mem dst w h 1 (j - j % 2) (i - i % 2) ∧
        chwElement t.mem dst w h 2 j i = chwElement t.mem dst w h 2 (j - j % 2) (i - i % 2) ∧
        chwElement t.mem dst w h 1 j i =
          normByte (s.mem.read (src + w * h + j / 2 * w + 2 * (i / 2))) ∧
        chwElement t.mem dst w h 2 j i =
          normByte (s.mem.read (src + w * h + j / 2 * w + 2 * (i / 2) + 1))

/-- R164: frames that carry logically identical data in their two layouts give byte-identical
tensors. -/
def Obligations.Nv12AndI420Agree : Prop :=
  ∀ (s s' : State) (src dst src' dst' w h : Nat), s.mem.wf = true → s'.mem.wf = true →
    callOk (.nv12ToChw src dst w h) s = true → callOk (.i420ToChw src' dst' w h) s' = true →
    (∀ k, k < w * h → s.mem.read (src + k) = s'.mem.read (src' + k)) →
    (∀ r c, r < h / 2 → c < w / 2 →
      s.mem.read (src + w * h + r * w + 2 * c) = s'.mem.read (src' + w * h + r * (w / 2) + c) ∧
      s.mem.read (src + w * h + r * w + 2 * c + 1) =
        s'.mem.read (src' + w * h + w * h / 4 + r * (w / 2) + c)) →
    ∃ t t', exec (.nv12ToChw src dst w h) s = .next t ∧
      exec (.i420ToChw src' dst' w h) s' = .next t' ∧
      ∀ a, a < 12 * (w * h) → t.mem.read (dst + a) = t'.mem.read (dst' + a)

/-- R184: a tile that is the whole frame gives exactly what `I420_TO_CHW` gives. -/
def Obligations.FullFrameTileIsI420 : Prop :=
  ∀ (s : State) (src dst w h : Nat), s.mem.wf = true →
    callOk (.i420ToChw src dst w h) s = true →
    ∃ t, exec (.tileToChw src dst 0 0 w h w h) s = .next t ∧
      exec (.i420ToChw src dst w h) s = .next t

/-- R184, second part: for an even `y`, in a frame whose width is divisible by 8, the tile's tensor is
the crop of the full-frame tensor. -/
def Obligations.EvenTileIsCropOfFullFrame : Prop :=
  ∀ (s : State) (src dst dst' x y w h fw fh : Nat), s.mem.wf = true → y % 2 = 0 → fw % 8 = 0 →
    callOk (.tileToChw src dst x y w h fw fh) s = true →
    callOk (.i420ToChw src dst' fw fh) s = true →
    ∃ t t', exec (.tileToChw src dst x y w h fw fh) s = .next t ∧
      exec (.i420ToChw src dst' fw fh) s = .next t' ∧
      ∀ c j i, c < 3 → j < h → i < w →
        chwElement t.mem dst w h c j i = chwElement t'.mem dst' fw fh c (y + j) (x + i)

/-- R123: the first plane of the tensor of `NV12_TO_CHW` and of `I420_TO_CHW` is what `Y_TO_HW` with
`width*height` samples writes. -/
def Obligations.ChwFirstPlaneIsYToHw : Prop :=
  ∀ (s : State) (src dst w h : Nat), s.mem.wf = true →
    (callOk (.nv12ToChw src dst w h) s = true →
      ∃ t t', exec (.nv12ToChw src dst w h) s = .next t ∧
        exec (.yToHw src dst (w * h)) s = .next t' ∧
        SameInside dst (dst + 4 * (w * h)) t'.mem t.mem) ∧
    (callOk (.i420ToChw src dst w h) s = true →
      ∃ t t', exec (.i420ToChw src dst w h) s = .next t ∧
        exec (.yToHw src dst (w * h)) s = .next t' ∧
        SameInside dst (dst + 4 * (w * h)) t'.mem t.mem)

/-- R124: one `Y_TO_HW` and two of them at adjacent offsets leave the same memory. -/
def Obligations.YToHwSplitsIntoBatches : Prop :=
  ∀ (s : State) (src dst n k : Nat), s.mem.wf = true →
    callOk (.yToHw src dst (n + k)) s = true → n % 4 = 0 → 1 ≤ n → 1 ≤ k →
    ∃ t t1 t2, exec (.yToHw src dst (n + k)) s = .next t ∧
      exec (.yToHw src dst n) s = .next t1 ∧
      exec (.yToHw (src + n) (dst + 4 * n) k) t1 = .next t2 ∧ t2.mem = t.mem

/-- R141: the reference sequence of the NV12 upsampler, batches and row doubling, leaves the same
memory as the per-sample rule R140. -/
def Obligations.Nv12ReferenceSequenceAgrees : Prop :=
  ∀ (frame m : Memory) (uvSrc uDst vDst width rows : Nat), m.wf = true → width % 4 = 0 →
    (uDst + 4 * (2 * rows * width) ≤ vDst ∨ vDst + 4 * (2 * rows * width) ≤ uDst) →
    nv12UpsampleReference frame uvSrc uDst vDst width rows m =
      nv12Upsample frame uvSrc uDst vDst width (width / 2) rows m

/-- R161: the reference sequence of the I420 upsampler leaves the same memory as the rule R160. -/
def Obligations.I420ReferenceSequenceAgrees : Prop :=
  ∀ (frame m : Memory) (pSrc stride rows cols pDst : Nat), m.wf = true → cols % 4 = 0 →
    i420UpsampleReference frame pSrc stride rows cols pDst m =
      i420Upsample frame pSrc stride rows cols pDst m

/-- R183: the reference traversal of the tile, pointers and stride jumps, leaves the same memory as
the address formulas of R180. -/
def Obligations.TileReferenceTraversalAgrees : Prop :=
  ∀ (frame m : Memory) (src dst x y w h fw fh : Nat), m.wf = true →
    x % 4 = 0 → w % 8 = 0 → h % 2 = 0 → fw % 2 = 0 → x + w ≤ fw →
    tileFrameReference frame src dst x y w h fw fh m = tileFrame frame src dst x y w h fw fh m

/-- R201: the rounding average: the exact value, its bounds, and the listed values. -/
def Obligations.RoundAvgValues : Prop :=
  (∀ a b : Byte, (roundAvg a b).toNat = (a.toNat + b.toNat + 1) / 2 ∧
    roundAvg a b = roundAvg b a ∧ roundAvg a a = a) ∧
  roundAvg 0 255 = 128 ∧ roundAvg 0 1 = 1 ∧ roundAvg 254 255 = 255 ∧ roundAvg 0 0 = 0 ∧
  roundAvg 255 255 = 255 ∧
  (∃ a b c : Byte, roundAvg (roundAvg a b) c ≠ roundAvg a (roundAvg b c))

/-- R204: the diagonal is the two-stage value, horizontal pairs first; it is never below the 4-term
value, exceeds it by at most 1, differs from it for (0,0,0,1), and the vertical-first pairing gives
another byte for (0,0,1,3). -/
def Obligations.DiagonalIsTwoStage : Prop :=
  (∀ tl tr bl br : Byte,
    diagonalAvg tl tr bl br = roundAvg (roundAvg tl tr) (roundAvg bl br) ∧
    (tl.toNat + tr.toNat + bl.toNat + br.toNat + 2) / 4 ≤ (diagonalAvg tl tr bl br).toNat ∧
    (diagonalAvg tl tr bl br).toNat ≤
      (tl.toNat + tr.toNat + bl.toNat + br.toNat + 2) / 4 + 1) ∧
  (diagonalAvg 0 0 0 1 = 1 ∧ (0 + 0 + 0 + 1 + 2) / 4 = 0) ∧ diagonalAvg 0 0 1 3 = 1 ∧
  roundAvg (roundAvg 0 1) (roundAvg 0 3) = 2

/-- R209: the last output column repeats the one before it, with the values R209 gives, and the last
output row repeats the one before it. -/
def Obligations.UpscaleRepeatsLastColumnAndRow : Prop :=
  ∀ (s : State) (src dst w h : Nat), s.mem.wf = true →
    callOk (.bilinearUpscale src dst w h) s = true →
    ∃ t, exec (.bilinearUpscale src dst w h) s = .next t ∧
      (∀ y, y < h →
        t.mem.read (upscaledAddress dst w (2 * y) (2 * w - 1)) =
          s.mem.read (src + y * w + (w - 1)) ∧
        t.mem.read (upscaledAddress dst w (2 * y + 1) (2 * w - 1)) =
          roundAvg (s.mem.read (src + y * w + (w - 1)))
            (s.mem.read (src + min (y + 1) (h - 1) * w + (w - 1)))) ∧
      (∀ v, v < 2 * h → t.mem.read (upscaledAddress dst w v (2 * w - 1)) =
        t.mem.read (upscaledAddress dst w v (2 * w - 2))) ∧
      (∀ u, u < 2 * w → t.mem.read (upscaledAddress dst w (2 * h - 1) u) =
        t.mem.read (upscaledAddress dst w (2 * h - 2) u))

/-- R208: a uniform channel stays uniform; the output for `[[0,255],[0,255]]` is four rows of 00 80 FF
FF, its centre diagonal 128. -/
def Obligations.UpscaleOfUniformChannel : Prop :=
  (∀ (s : State) (src dst w h : Nat) (v : Byte), s.mem.wf = true →
    callOk (.bilinearUpscale src dst w h) s = true →
    (∀ k, k < w * h → s.mem.read (src + k) = v) →
    ∃ t, exec (.bilinearUpscale src dst w h) s = .next t ∧
      ∀ k, k < 4 * (w * h) → t.mem.read (dst + k) = v) ∧
  (∀ (s : State) (src dst : Nat), s.mem.wf = true →
    callOk (.bilinearUpscale src dst 2 2) s = true →
    s.mem.read src = 0 → s.mem.read (src + 1) = 255 →
    s.mem.read (src + 2) = 0 → s.mem.read (src + 3) = 255 →
    ∃ t, exec (.bilinearUpscale src dst 2 2) s = .next t ∧
      roundAvg (roundAvg 0 255) (roundAvg 0 255) = 128 ∧
      t.mem.read (upscaledAddress dst 2 1 1) = 128 ∧
      ∀ v, v < 4 →
        t.mem.read (upscaledAddress dst 2 v 0) = 0x00 ∧
        t.mem.read (upscaledAddress dst 2 v 1) = 0x80 ∧
        t.mem.read (upscaledAddress dst 2 v 2) = 0xFF ∧
        t.mem.read (upscaledAddress dst 2 v 3) = 0xFF)

/-- R207, R64: an upscaled channel is normalized by the next call with nothing in between, for every
size. -/
def Obligations.UpscaledChannelIsNormalizedNext : Prop :=
  ∀ (s : State) (src dst out w h : Nat), s.mem.wf = true →
    callOk (.bilinearUpscale src dst w h) s = true →
    out + 16 * (w * h) ≤ s.memSize →
    (dst + 4 * (w * h) ≤ out ∨ out + 16 * (w * h) ≤ dst) →
    ∃ t t', exec (.bilinearUpscale src dst w h) s = .next t ∧
      exec (.yToHw dst out (4 * (w * h))) t = .next t' ∧
      ∀ k, k < 4 * (w * h) → readFloat t'.mem (out + 4 * k) = normByte (t.mem.read (dst + k))

/-! ### The region, the host and reset -/

/-- The invariant of log entry 7: every step keeps the region canonical and inside `MEM_SIZE` (R21),
`MEM_SIZE` in its range (R9), and no call but a running one disturbed. -/
def Obligations.StepKeepsInvariant : Prop :=
  ∀ s t : State, stateInv s = true → step s = .next t → stateInv t = true

/-- The reset state satisfies the invariant of log entry 7, is `IDLE` and has both channels empty (R33).
That the invariant holds rests on the model's own reset values: nothing listed in memory (log entry
2), `MEM_SIZE` 65536 (log entry 3, in the range of R9), no call disturbed (log entry 20). -/
def Obligations.ResetHasInvariant : Prop :=
  stateInv State.reset = true ∧ State.reset.status = .idle ∧ State.reset.cmdChan = [] ∧
    State.reset.rspChan = []

/-- R41: a value read is the sum of its bytes, least significant first; a value written puts its byte
`k` at `addr + k`, changes no other byte, and is the value read back, modulo its width. -/
def Obligations.MultiByteValuesAreLittleEndian : Prop :=
  ∀ (m : Memory) (addr n v : Nat), m.wf = true →
    memRead m addr n = ∑ k ∈ Finset.range n, (m.read (addr + k)).toNat * 256 ^ k ∧
    (∀ k, k < n → ((memWrite m addr n v).read (addr + k)).toNat = (v >>> (8 * k)) % 256) ∧
    SameOutside addr (addr + n) m (memWrite m addr n v) ∧
    memRead (memWrite m addr n v) addr n = v % 256 ^ n

/-- R33, R55: whatever changes the region is a running legal command, a host write, the host growing
it, or a reset that hits a running legal command. -/
def Obligations.RegionChangesOnlyByCallsAndHost : Prop :=
  ∀ s t : State, step s = .next t → t.mem ≠ s.mem →
    (engineIsNext s = true ∧ s.status = .busy ∧ ∃ i, decode (latchedPacket s) = .legal i) ∨
    (∃ a b rest, s.host = .write a b :: rest) ∨
    (∃ n rest, s.host = .grow n :: rest) ∨
    (∃ rest, s.host = .assertReset :: rest ∧ s.status = .busy ∧
      ∃ i, decode (latchedPacket s) = .legal i)

/-- R33, R250: a reset of an engine with no legal command running: `IDLE`, both channels empty, no
byte of `MEM` changed. -/
def Obligations.ResetEmptiesChannelsKeepsRegion : Prop :=
  ∀ (s : State) (rest : List HostAction), s.host = .assertReset :: rest →
    ∃ t, step s = .next t ∧ t.status = .idle ∧ t.cmdChan = [] ∧ t.rspChan = [] ∧
      t.memSize = s.memSize ∧ t.host = rest ∧
      (runningCommand s = none → t.mem = s.mem)

/-- R252: a reset during a call: no response, `IDLE`, the output range unspecified (free bytes of one
draw, log entry 1), and bytes outside it unchanged if the call's outcome was `OK`. -/
def Obligations.ResetDuringCallSparesOtherBytes : Prop :=
  ∀ (s : State) (i : Instr) (rest : List HostAction), s.mem.wf = true →
    s.host = .assertReset :: rest → s.status = .busy → decode (latchedPacket s) = .legal i →
    callOk i s = true →
    ∃ t, step s = .next t ∧ t.status = .idle ∧ t.rspChan = [] ∧ t.cmdChan = [] ∧
      SameOutside (outSpan i).lo (outSpan i).hi s.mem t.mem ∧
      ∀ a, (outSpan i).lo ≤ a → a < (outSpan i).hi → t.mem.read a = Config.freeByte s.free a

/-- R45, R55: with no call in progress the region is plain memory: a read returns the last value
written to that byte, has no side effect, and a write changes only its byte. -/
def Obligations.HostReadsLastValueWritten : Prop :=
  ∀ (s : State) (a : Nat) (b : Byte) (rest : List HostAction), s.mem.wf = true →
    a < s.memSize → s.status = .idle → s.cmdChan = [] → s.host = .write a b :: .read a :: rest →
    ∃ t u, step s = .next t ∧ step t = .next u ∧ u.hostReads = s.hostReads ++ [b] ∧
      u.mem = t.mem ∧ u.host = rest ∧ ∀ c, c ≠ a → t.mem.read c = s.mem.read c

/-- R63: a host read during a running legal command. In the output range the value is unspecified (a
free byte, log entry 1); elsewhere, while the outcome is `OK`, it is plain memory, whatever packets
wait. In both cases the call is not disturbed (R266). -/
def Obligations.HostReadDuringCall : Prop :=
  ∀ (s : State) (i : Instr) (a : Nat) (rest : List HostAction), a < s.memSize →
    s.status = .busy → decode (latchedPacket s) = .legal i → s.host = .read a :: rest →
    ∃ t v, step s = .next t ∧ t.hostReads = s.hostReads ++ [v] ∧ t.mem = s.mem ∧
      t.status = .busy ∧ t.disturbed = s.disturbed ∧ latchedPacket t = latchedPacket s ∧
      t.cmdChan = s.cmdChan ∧
      (spanHas (outSpan i) a = true → v = Config.freeByte s.free a) ∧
      (spanHas (outSpan i) a = false → callOk i s = true → v = s.mem.read a)

/-- R63, R267: a host write into the source or output range of a running legal command makes its
outcome `UNSPEC`: the call is answered 0 and every byte is unspecified. A write elsewhere leaves
the outcome as it was. -/
def Obligations.HostWriteDuringCall : Prop :=
  ∀ (s : State) (i : Instr) (a : Nat) (b : Byte) (rest : List HostAction), s.mem.wf = true →
    a < s.memSize → s.status = .busy → decode (latchedPacket s) = .legal i →
    s.host = .write a b :: .engineTurn :: rest →
    ∃ t, step s = .next t ∧ t.mem.read a = b ∧ latchedPacket t = latchedPacket s ∧
      (packetUses (latchedPacket s) a = false → callOk i t = callOk i s) ∧
      (packetUses (latchedPacket s) a = true →
        ∃ u, step t = .next u ∧ Answered (engineState t) u 0 ∧
          ∀ c, c < s.memSize → u.mem.read c = Config.freeByte t.free c)

/-- R267, counted from presentation (the model's choice, log entry 10). A host write marks every waiting
packet whose ranges it hits and no other, wherever it waits and whatever the status. Every other step
but a reset keeps the waiting packets with their marks, or an `IDLE` engine accepts the oldest with
its mark. A running call keeps its packet, and its mark once it has one, until it is answered. A
marked call is not `OK`. -/
def Obligations.HostWriteAfterPresentation : Prop :=
  (∀ (s : State) (a : Nat) (b : Byte) (rest : List HostAction),
    a < s.memSize → s.host = .write a b :: rest →
    ∃ t, step s = .next t ∧ t.cmdChan.length = s.cmdChan.length ∧
      ∀ (k : Nat) (p : Presented), s.cmdChan[k]? = some p →
        t.cmdChan[k]? = some ⟨p.packet, p.disturbed || packetUses p.packet a⟩) ∧
  (∀ s t : State, step s = .next t → (∀ a b rest, s.host ≠ .write a b :: rest) →
    (∀ rest, s.host ≠ .assertReset :: rest) →
    s.cmdChan <+: t.cmdChan ∨
    (∃ p, s.status = .idle ∧ t.status = .busy ∧ s.cmdChan = p :: t.cmdChan ∧
      latchedPacket t = p.packet ∧ t.disturbed = p.disturbed)) ∧
  (∀ s t : State, step s = .next t → s.status = .busy → t.status = .busy →
    latchedPacket t = latchedPacket s ∧ (s.disturbed = true → t.disturbed = true)) ∧
  (∀ (s : State) (i : Instr), s.disturbed = true → callOk i s = false)

/-- The model's choice (log entry 12): a host access at or past `MEM_SIZE` is a fault. R21 says that no
such address exists and the spec says nothing of a host access to one. -/
def Obligations.HostAccessOutsideRegionFaults : Prop :=
  ∀ (s : State) (a : Nat) (rest : List HostAction), s.memSize ≤ a →
    (s.host = .read a :: rest → step s = .fault .hostAddressOutsideRegion) ∧
    (∀ b, s.host = .write a b :: rest → step s = .fault .hostAddressOutsideRegion)

/-- R269: the host may grow the region while no call is presented or running, and growing keeps the
content of the existing bytes. During a call it is unspecified; that it is refused, by name, is the
model's choice (log entry 12, after U18). -/
def Obligations.GrowingKeepsExistingBytes : Prop :=
  ∀ (s : State) (n : Nat) (rest : List HostAction), s.mem.wf = true → s.host = .grow n :: rest →
    (s.status = .idle → s.cmdChan = [] → s.memSize + n ≤ Config.addressSpace →
      ∃ t, step s = .next t ∧ t.memSize = s.memSize + n ∧
        ∀ a, a < s.memSize → t.mem.read a = s.mem.read a) ∧
    ((s.status = .busy ∨ s.cmdChan ≠ []) → step s = .refused .regionGrownDuringCall)
end

