-- ==== Sys2Proof/Laws/Memory.lean ====
section
/-!
SUPPORT. Laws/Memory.lean: the region: a read after a write, the canonical form, that equal contents are
equal lists, the counted loop, and multi-byte values.
-/

namespace Sys2Proof.Machine

/-! ### Canonical form -/

theorem canonicalFrom_cons (lo k : Nat) (b : Byte) (m : Memory) :
    Memory.canonicalFrom lo ((k, b) :: m) = true ↔
      lo ≤ k ∧ b ≠ Config.unlistedByte ∧ Memory.canonicalFrom (k + 1) m = true := by
  simp [Memory.canonicalFrom, and_assoc]

theorem canonicalFrom_mono {lo lo' : Nat} (h : lo' ≤ lo) :
    ∀ {m : Memory}, m.canonicalFrom lo = true → m.canonicalFrom lo' = true
  | [], _ => rfl
  | (_, _) :: _, hm => by
    rw [canonicalFrom_cons] at hm ⊢
    exact ⟨h.trans hm.1, hm.2⟩

/-- Below the first address of the canonical form nothing is listed. -/
theorem read_below {lo a : Nat} (h : a < lo) :
    ∀ {m : Memory}, m.canonicalFrom lo = true → m.read a = Config.unlistedByte
  | [], _ => rfl
  | (k, _) :: m, hm => by
    rw [canonicalFrom_cons] at hm
    have hk : k ≠ a := by omega
    simpa [Memory.read, hk] using read_below (m := m) (by omega) hm.2.2

/-- A write keeps the canonical form from any bound that is not above its address. -/
theorem canonicalFrom_write {a : Nat} {v : Byte} :
    ∀ {m : Memory} {lo : Nat}, m.canonicalFrom lo = true → lo ≤ a →
      (m.write a v).canonicalFrom lo = true
  | [], lo, _, h => by
    by_cases hv : v = Config.unlistedByte <;> simp [Memory.write, Memory.canonicalFrom, hv, h]
  | (k, b) :: m, lo, hm, h => by
    have hc := hm
    rw [canonicalFrom_cons] at hc
    obtain ⟨hk, hb, hm'⟩ := hc
    simp only [Memory.write]
    split
    · split
      · exact hm
      · rw [canonicalFrom_cons, canonicalFrom_cons]
        exact ⟨h, ‹_›, by omega, hb, hm'⟩
    · split
      · split
        · exact canonicalFrom_mono (by omega) hm'
        · rw [canonicalFrom_cons]
          refine ⟨h, ‹_›, ?_⟩
          rw [‹a = k›]
          exact hm'
      · rw [canonicalFrom_cons]
        exact ⟨hk, hb, canonicalFrom_write hm' (by omega)⟩

theorem wf_write {m : Memory} (h : m.wf = true) (a : Nat) (v : Byte) : (m.write a v).wf = true :=
  canonicalFrom_write h (Nat.zero_le a)

/-- A read after a write: the value written at its address, the old value everywhere else (R45). -/
theorem read_write_from {a c : Nat} {v : Byte} :
    ∀ {m : Memory} {lo : Nat}, m.canonicalFrom lo = true →
      (m.write a v).read c = if c = a then v else m.read c
  | [], _, _ => by
    by_cases hv : v = Config.unlistedByte <;> by_cases hc : c = a <;>
      simp [Memory.write, Memory.read, hv, hc, Ne.symm]
  | (k, b) :: m, _, hm => by
    rw [canonicalFrom_cons] at hm
    have ih := @read_write_from a c v m _ hm.2.2
    have hlow : ∀ d, d ≤ k → Memory.read m d = Config.unlistedByte := fun d hd =>
      read_below (by omega) hm.2.2
    simp only [Memory.write]
    by_cases h1 : a < k
    · by_cases hv : v = Config.unlistedByte
      · by_cases hc : c = a
        · subst hc
          have hk : k ≠ c := by omega
          simp [h1, hv, Memory.read, hk, hlow c h1.le]
        · simp [h1, hv, hc, Memory.read]
      · by_cases hc : c = a
        · simp [h1, hv, hc, Memory.read]
        · simp [h1, hv, hc, Memory.read, Ne.symm hc]
    · by_cases h2 : a = k
      · subst h2
        by_cases hv : v = Config.unlistedByte <;> by_cases hc : c = a
        · subst hc; simp [hv, hlow]
        · simp [hv, hc, Memory.read, Ne.symm hc]
        · simp [hv, hc, Memory.read]
        · simp [hv, hc, Memory.read, Ne.symm hc]
      · by_cases hkc : k = c
        · subst hkc
          simp [h1, h2, Memory.read, Ne.symm h2]
        · simp [h1, h2, Memory.read, hkc, ih]

theorem read_write {m : Memory} (h : m.wf = true) (a c : Nat) (v : Byte) :
    (m.write a v).read c = if c = a then v else m.read c :=
  read_write_from h

@[simp] theorem read_write_same {m : Memory} (h : m.wf = true) (a : Nat) (v : Byte) :
    (m.write a v).read a = v := by
  simp [read_write h]

theorem read_write_other {m : Memory} (h : m.wf = true) {a c : Nat} (hc : c ≠ a) (v : Byte) :
    (m.write a v).read c = m.read c := by
  simp [read_write h, hc]

/-- Two canonical lists with the same contents are the same list. -/
theorem canonical_ext :
    ∀ {m m' : Memory} {lo lo' : Nat}, m.canonicalFrom lo = true → m'.canonicalFrom lo' = true →
      (∀ a, m.read a = m'.read a) → m = m'
  | [], [], _, _, _, _, _ => rfl
  | [], (k, b) :: _, _, _, _, hm', h => by
    rw [canonicalFrom_cons] at hm'
    have := h k
    simp only [Memory.read, if_true] at this
    exact absurd this.symm hm'.2.1
  | (k, b) :: _, [], _, _, hm, _, h => by
    rw [canonicalFrom_cons] at hm
    have := h k
    simp only [Memory.read, if_true] at this
    exact absurd this hm.2.1
  | (k, b) :: m, (k', b') :: m', _, _, hm, hm', h => by
    rw [canonicalFrom_cons] at hm hm'
    have hl : ∀ d, d ≤ k → Memory.read m d = Config.unlistedByte := fun d hd =>
      read_below (by omega) hm.2.2
    have hl' : ∀ d, d ≤ k' → Memory.read m' d = Config.unlistedByte := fun d hd =>
      read_below (by omega) hm'.2.2
    have hk : k = k' := by
      rcases Nat.lt_trichotomy k k' with hlt | heq | hgt
      · have := h k
        simp [Memory.read, show k' ≠ k by omega, hl' k hlt.le] at this
        exact absurd this hm.2.1
      · exact heq
      · have := h k'
        simp [Memory.read, show k ≠ k' by omega, hl k' hgt.le] at this
        exact absurd this.symm hm'.2.1
    subst hk
    have hb : b = b' := by simpa [Memory.read] using h k
    subst hb
    have ht : m = m' := canonical_ext hm.2.2 hm'.2.2 fun a => by
      by_cases ha : k = a
      · subst ha; rw [hl k le_rfl, hl' k le_rfl]
      · simpa [Memory.read, ha] using h a
    rw [ht]

theorem wf_ext {m m' : Memory} (h : m.wf = true) (h' : m'.wf = true)
    (heq : ∀ a, m.read a = m'.read a) : m = m' :=
  canonical_ext h h' heq

/-! ### Every listed byte exists -/

@[simp] theorem within_nil (size : Nat) : Memory.within size [] = true := rfl

theorem within_cons (size k : Nat) (b : Byte) (m : Memory) :
    Memory.within size ((k, b) :: m) = true ↔ k < size ∧ Memory.within size m = true := by
  simp [Memory.within]

theorem within_mono {size size' : Nat} (h : size ≤ size') {m : Memory}
    (hm : m.within size = true) : m.within size' = true := by
  simp only [Memory.within, List.all_eq_true, decide_eq_true_eq] at hm ⊢
  exact fun c hc => (hm c hc).trans_le h

theorem within_write {size a : Nat} {v : Byte} (ha : a < size) :
    ∀ {m : Memory}, m.within size = true → (m.write a v).within size = true
  | [], _ => by
    by_cases hv : v = Config.unlistedByte <;> simp [Memory.write, Memory.within, hv, ha]
  | (k, b) :: m, hm => by
    have hc := hm
    rw [within_cons] at hc
    simp only [Memory.write]
    split
    · split
      · exact hm
      · rw [within_cons]; exact ⟨ha, hm⟩
    · split
      · split
        · exact hc.2
        · rw [within_cons]; exact ⟨ha, hc.2⟩
      · rw [within_cons]; exact ⟨hc.1, within_write ha hc.2⟩

/-- An address at or past `MEM_SIZE` is not listed. -/
theorem read_outside {size a : Nat} (ha : size ≤ a) :
    ∀ {m : Memory}, m.within size = true → m.read a = Config.unlistedByte
  | [], _ => rfl
  | (k, b) :: m, hm => by
    rw [within_cons] at hm
    have hk : k ≠ a := by omega
    simpa [Memory.read, hk] using read_outside ha hm.2

/-- In canonical form, a memory that reads as unlisted at and past `size` lists nothing there. -/
theorem within_of_read {size : Nat} :
    ∀ {m : Memory} {lo : Nat}, m.canonicalFrom lo = true →
      (∀ a, size ≤ a → m.read a = Config.unlistedByte) → m.within size = true
  | [], _, _, _ => rfl
  | (k, b) :: m, lo, h, hr => by
    rw [canonicalFrom_cons] at h
    have hk : k < size := by
      by_contra hc
      have := hr k (by omega)
      simp only [Memory.read, if_true] at this
      exact h.2.1 this
    rw [within_cons]
    refine ⟨hk, within_of_read h.2.2 fun a ha => ?_⟩
    have := hr a ha
    rwa [Memory.read, if_neg (by omega)] at this

/-! ### The counted loop -/

@[simp] theorem forUpTo_zero (body : Nat → Memory → Memory) (m : Memory) :
    forUpTo 0 body m = m := rfl

theorem forUpTo_succ (n : Nat) (body : Nat → Memory → Memory) (m : Memory) :
    forUpTo (n + 1) body m = body n (forUpTo n body m) := rfl

/-- What holds at the start and is carried from round `i` to round `i + 1` holds after `n` rounds. -/
theorem forUpTo_induct {P : Nat → Memory → Prop} {body : Nat → Memory → Memory} {m : Memory}
    (h0 : P 0 m) : ∀ (n : Nat), (∀ i < n, ∀ m', P i m' → P (i + 1) (body i m')) →
      P n (forUpTo n body m)
  | 0, _ => h0
  | n + 1, hs => hs n (Nat.lt_succ_self n) _ (forUpTo_induct h0 n fun i hi => hs i (by omega))

/-- A property that every round keeps holds after the loop. -/
theorem forUpTo_keeps {P : Memory → Prop} {body : Nat → Memory → Memory} {m : Memory} {n : Nat}
    (h0 : P m) (hs : ∀ i < n, ∀ m', P m' → P (body i m')) : P (forUpTo n body m) :=
  forUpTo_induct (P := fun _ => P) h0 n hs

/-- Loops whose rounds agree on memories that a property holds of agree. -/
theorem forUpTo_congr {P : Memory → Prop} {body body' : Nat → Memory → Memory} {m : Memory} {n : Nat}
    (h0 : P m) (hs : ∀ i < n, ∀ m', P m' → P (body i m'))
    (he : ∀ i < n, ∀ m', P m' → body i m' = body' i m') :
    forUpTo n body m = forUpTo n body' m := by
  induction n with
  | zero => rfl
  | succ n ih =>
    have hk : P (forUpTo n body m) := forUpTo_keeps h0 fun i hi => hs i (by omega)
    rw [forUpTo_succ, forUpTo_succ, he n (by omega) _ hk,
      ih (fun i hi => hs i (by omega)) fun i hi => he i (by omega)]

/-! ### Multi-byte values -/

theorem wf_memWrite {m : Memory} (h : m.wf = true) (a n v : Nat) : (memWrite m a n v).wf = true :=
  forUpTo_keeps (P := fun m => m.wf = true) h fun _ _ _ h' => wf_write h' _ _

theorem wf_writeFloat {m : Memory} (h : m.wf = true) (a : Nat) (p : Word) :
    (writeFloat m a p).wf = true :=
  wf_memWrite h _ _ _

theorem wf_memCopy {m : Memory} (h : m.wf = true) (dst src n : Nat) :
    (memCopy m dst src n).wf = true :=
  forUpTo_keeps (P := fun m => m.wf = true) h fun _ _ _ h' => wf_write h' _ _

theorem wf_freeFill {m : Memory} (h : m.wf = true) (k lo n : Nat) : (freeFill k lo n m).wf = true :=
  forUpTo_keeps (P := fun m => m.wf = true) h fun _ _ _ h' => wf_write h' _ _

theorem within_freeFill {m : Memory} {size lo n : Nat} (h : m.within size = true)
    (hn : lo + n ≤ size) (k : Nat) : (freeFill k lo n m).within size = true :=
  forUpTo_keeps (P := fun m => m.within size = true) h fun i hi _ h' =>
    within_write (by omega) h'

/-- What `memWrite` leaves at every address (R41). -/
theorem read_memWrite {m : Memory} (h : m.wf = true) (a n v c : Nat) :
    (memWrite m a n v).read c =
      if a ≤ c ∧ c < a + n then BitVec.ofNat 8 (v >>> (8 * (c - a))) else m.read c := by
  have key := forUpTo_induct
    (P := fun i m' => m'.wf = true ∧ ∀ c, m'.read c =
      if a ≤ c ∧ c < a + i then BitVec.ofNat 8 (v >>> (8 * (c - a))) else m.read c)
    (body := fun k m => m.write (a + k) (BitVec.ofNat 8 (v >>> (8 * k)))) (m := m)
    ⟨h, fun c => by simp⟩ n fun i _ m' hm' => ⟨wf_write hm'.1 _ _, fun c => by
      rw [read_write hm'.1, hm'.2 c]
      by_cases hc : c = a + i
      · subst hc; simp
      · have : (a ≤ c ∧ c < a + (i + 1)) ↔ (a ≤ c ∧ c < a + i) := by omega
        simp [hc, this]⟩
  exact key.2 c

/-- What `writeFloat` leaves at every address: the four bytes of the pattern, least significant byte
first, and the old bytes elsewhere (R41, R42). -/
theorem read_writeFloat {m : Memory} (h : m.wf = true) (a : Nat) (p : Word) (c : Nat) :
    (writeFloat m a p).read c =
      if a ≤ c ∧ c < a + 4 then BitVec.ofNat 8 (p.toNat >>> (8 * (c - a))) else m.read c :=
  read_memWrite h a 4 p.toNat c

theorem read_writeFloat_other {m : Memory} (h : m.wf = true) {a c : Nat} (p : Word)
    (hc : c < a ∨ a + 4 ≤ c) : (writeFloat m a p).read c = m.read c := by
  rw [read_writeFloat h, if_neg (by omega)]

/-- The four bytes that make up a float. -/
theorem readFloat_eq (m : Memory) (a : Nat) :
    readFloat m a = BitVec.ofNat 32 ((m.read a).toNat + 256 * ((m.read (a + 1)).toNat
      + 256 * ((m.read (a + 2)).toNat + 256 * (m.read (a + 3)).toNat))) := by
  simp [readFloat, memRead, Nat.add_assoc]

/-- A float depends on its four bytes only. -/
theorem readFloat_congr {m m' : Memory} {a : Nat}
    (h : ∀ c, a ≤ c → c < a + 4 → m.read c = m'.read c) : readFloat m a = readFloat m' a := by
  simp only [readFloat_eq]
  rw [h a (by omega) (by omega), h (a + 1) (by omega) (by omega), h (a + 2) (by omega) (by omega),
    h (a + 3) (by omega) (by omega)]

/-- A float read back is the pattern written (R41). -/
@[simp] theorem readFloat_writeFloat_same {m : Memory} (h : m.wf = true) (a : Nat) (p : Word) :
    readFloat (writeFloat m a p) a = p := by
  rw [readFloat_eq]
  simp only [read_writeFloat h, le_refl, Nat.le_add_right, Nat.add_lt_add_iff_left, true_and]
  apply BitVec.eq_of_toNat_eq
  have hp := p.isLt
  simp [Nat.shiftRight_eq_div_pow]
  omega

theorem readFloat_writeFloat_other {m : Memory} (h : m.wf = true) {a c : Nat} (p : Word)
    (hc : c + 4 ≤ a ∨ a + 4 ≤ c) : readFloat (writeFloat m a p) c = readFloat m c :=
  readFloat_congr fun d hd hd' => read_writeFloat_other h p (by omega)

/-- What `freeFill` leaves at every address. -/
theorem read_freeFill {m : Memory} (h : m.wf = true) (k lo n c : Nat) :
    (freeFill k lo n m).read c =
      if lo ≤ c ∧ c < lo + n then Config.freeByte k c else m.read c := by
  have key := forUpTo_induct
    (P := fun i m' => m'.wf = true ∧ ∀ c, m'.read c =
      if lo ≤ c ∧ c < lo + i then Config.freeByte k c else m.read c)
    (body := fun j m => m.write (lo + j) (Config.freeByte k (lo + j))) (m := m)
    ⟨h, fun c => by simp⟩ n fun i _ m' hm' => ⟨wf_write hm'.1 _ _, fun c => by
      rw [read_write hm'.1, hm'.2 c]
      by_cases hc : c = lo + i
      · subst hc; simp
      · have : (lo ≤ c ∧ c < lo + (i + 1)) ↔ (lo ≤ c ∧ c < lo + i) := by omega
        simp [hc, this]⟩
  exact key.2 c

/-- What `memCopy` leaves at every address when its ranges do not overlap (R13). -/
theorem read_memCopy {m : Memory} (h : m.wf = true) {dst src n : Nat}
    (hd : src + n ≤ dst ∨ dst + n ≤ src) (c : Nat) :
    (memCopy m dst src n).read c =
      if dst ≤ c ∧ c < dst + n then m.read (src + (c - dst)) else m.read c := by
  have key := forUpTo_induct
    (P := fun i m' => m'.wf = true ∧ ∀ c, m'.read c =
      if dst ≤ c ∧ c < dst + i then m.read (src + (c - dst)) else m.read c)
    (body := fun k m => m.write (dst + k) (m.read (src + k))) (m := m)
    ⟨h, fun c => by simp⟩ n fun i hi m' hm' => ⟨wf_write hm'.1 _ _, fun c => by
      rw [read_write hm'.1, hm'.2 c, hm'.2 (src + i)]
      by_cases hc : c = dst + i
      · subst hc
        rw [if_pos rfl, if_neg (by omega), if_pos (by omega), Nat.add_sub_cancel_left]
      · have : (dst ≤ c ∧ c < dst + (i + 1)) ↔ (dst ≤ c ∧ c < dst + i) := by omega
        simp [hc, this]⟩
  exact key.2 c

end Sys2Proof.Machine
end

