-- ==== Sys2Proof/Laws/Paint.lean ====
section
/-!
SUPPORT. Laws/Paint.lean: a result of a command as a picture painted over the region. `Paints Q f T` says
everything about a memory transformer `T`: on the addresses of `Q` it leaves the bytes `f`, whatever was
there, and it leaves every other byte alone. Loops, sequences and writes of floats paint; each kernel
gets one lemma that says what it paints.
-/

namespace Sys2Proof.Machine

/-- `T` leaves the byte `f a` at every address `a` in `Q`, and every other byte as it was. -/
def Paints (Q : Nat → Prop) (f : Nat → Byte) (T : Memory → Memory) : Prop :=
  ∀ m : Memory, m.wf = true → (T m).wf = true ∧
    ∀ a, (Q a → (T m).read a = f a) ∧ (¬ Q a → (T m).read a = m.read a)

theorem paints_congr {Q Q' : Nat → Prop} {f f' : Nat → Byte} {T : Memory → Memory}
    (hQ : ∀ a, Q a ↔ Q' a) (hf : ∀ a, Q a → f a = f' a) (h : Paints Q f T) : Paints Q' f' T :=
  fun m hm => ⟨(h m hm).1, fun a =>
    ⟨fun ha => (((h m hm).2 a).1 ((hQ a).2 ha)).trans (hf a ((hQ a).2 ha)),
      fun ha => ((h m hm).2 a).2 fun hq => ha ((hQ a).1 hq)⟩⟩

/-- Two transformers that paint the same picture leave the same memory. -/
theorem paints_unique {Q : Nat → Prop} {f : Nat → Byte} {T T' : Memory → Memory}
    (h : Paints Q f T) (h' : Paints Q f T') {m : Memory} (hm : m.wf = true) : T m = T' m :=
  wf_ext (h m hm).1 (h' m hm).1 fun a => by
    by_cases ha : Q a
    · rw [((h m hm).2 a).1 ha, ((h' m hm).2 a).1 ha]
    · rw [((h m hm).2 a).2 ha, ((h' m hm).2 a).2 ha]

theorem paints_seq {Q₁ Q₂ : Nat → Prop} {f : Nat → Byte} {T₁ T₂ : Memory → Memory}
    (h₁ : Paints Q₁ f T₁) (h₂ : Paints Q₂ f T₂) :
    Paints (fun a => Q₁ a ∨ Q₂ a) f (fun m => T₂ (T₁ m)) := fun m hm => by
  have w₁ := h₁ m hm
  have w₂ := h₂ _ w₁.1
  refine ⟨w₂.1, fun a => ⟨fun ha => ?_, fun ha => ?_⟩⟩
  · by_cases h2 : Q₂ a
    · exact (w₂.2 a).1 h2
    · rw [(w₂.2 a).2 h2]
      exact (w₁.2 a).1 (ha.resolve_right h2)
  · rw [(w₂.2 a).2 fun h => ha (.inr h), (w₁.2 a).2 fun h => ha (.inl h)]

/-- A loop paints what its rounds paint. -/
theorem paints_forUpTo {Q : Nat → Nat → Prop} {f : Nat → Byte} {body : Nat → Memory → Memory} :
    ∀ (n : Nat), (∀ i < n, Paints (Q i) f (fun m => body i m)) →
      Paints (fun a => ∃ i < n, Q i a) f (fun m => forUpTo n body m)
  | 0, _ => fun m hm => ⟨hm, fun a => ⟨fun ⟨_, hi, _⟩ => absurd hi (Nat.not_lt_zero _), fun _ => rfl⟩⟩
  | n + 1, h => by
    have hseq := paints_seq (paints_forUpTo n fun i hi => h i (by omega)) (h n (by omega))
    refine paints_congr (T := fun m => forUpTo (n + 1) body m) (fun a => ?_) (fun _ _ => rfl) hseq
    constructor
    · rintro (⟨i, hi, hq⟩ | hq)
      · exact ⟨i, by omega, hq⟩
      · exact ⟨n, by omega, hq⟩
    · rintro ⟨i, hi, hq⟩
      rcases Nat.lt_succ_iff_lt_or_eq.1 hi with hlt | rfl
      · exact .inl ⟨i, hlt, hq⟩
      · exact .inr hq

theorem paints_write {f : Nat → Byte} {a : Nat} {v : Byte} (hv : v = f a) :
    Paints (fun c => c = a) f (fun m => m.write a v) := fun m hm =>
  ⟨wf_write hm _ _, fun c => ⟨fun hc => by subst hc; simp [hm, hv], fun hc => read_write_other hm hc v⟩⟩

/-! ### Tensors of floats -/

/-- The byte at address `a` of a tensor at `d` whose element `k` is `val k` (R15, R41). -/
def tensorByte (d : Nat) (val : Nat → Word) (a : Nat) : Byte :=
  BitVec.ofNat 8 ((val ((a - d) / 4)).toNat >>> (8 * ((a - d) % 4)))

/-- The addresses of the tensor elements whose index is in `K`. -/
def tensorAddr (d : Nat) (K : Nat → Prop) (a : Nat) : Prop := d ≤ a ∧ K ((a - d) / 4)

/-- Writing element `k` of a tensor paints its four bytes. -/
theorem paints_writeFloat {d k : Nat} {val : Nat → Word} {p : Word} (hp : p = val k) :
    Paints (tensorAddr d (fun j => j = k)) (tensorByte d val)
      (fun m => writeFloat m (d + 4 * k) p) := fun m hm => by
  refine ⟨wf_writeFloat hm _ _, fun a => ⟨fun ⟨hd, hk⟩ => ?_, fun ha => ?_⟩⟩
  · rw [read_writeFloat hm, if_pos (by omega), tensorByte, hk, hp,
      show a - (d + 4 * k) = (a - d) % 4 by omega]
  · refine read_writeFloat_other hm p ?_
    by_contra hc
    exact ha ⟨by omega, by omega⟩

/-- Elements painted are elements read back (R15, R41). -/
theorem readFloat_of_paints {d k : Nat} {K : Nat → Prop} {val : Nat → Word} {T : Memory → Memory}
    (h : Paints (tensorAddr d K) (tensorByte d val) T) {m : Memory} (hm : m.wf = true)
    (hk : K k) : readFloat (T m) (d + 4 * k) = val k := by
  have hb : ∀ j < 4, (T m).read (d + 4 * k + j) =
      BitVec.ofNat 8 ((val k).toNat >>> (8 * j)) := fun j hj => by
    have h4 : (d + 4 * k + j - d) / 4 = k := by omega
    have h5 : (d + 4 * k + j - d) % 4 = j := by omega
    rw [((h m hm).2 _).1 ⟨by omega, by rw [h4]; exact hk⟩, tensorByte, h4, h5]
  have h0 := hb 0 (by omega)
  rw [Nat.add_zero] at h0
  rw [readFloat_eq, h0, hb 1 (by omega), hb 2 (by omega), hb 3 (by omega)]
  apply BitVec.eq_of_toNat_eq
  have hp := (val k).isLt
  simp [Nat.shiftRight_eq_div_pow]
  omega

/-- Elements not painted are unchanged. -/
theorem paints_tensor_congr {d : Nat} {K K' : Nat → Prop} {val : Nat → Word} {T : Memory → Memory}
    (hK : ∀ k, K k ↔ K' k) (h : Paints (tensorAddr d K) (tensorByte d val) T) :
    Paints (tensorAddr d K') (tensorByte d val) T :=
  paints_congr (fun a => by simp [tensorAddr, hK]) (fun _ _ => rfl) h

theorem paints_tensor_seq {d : Nat} {K₁ K₂ : Nat → Prop} {val : Nat → Word}
    {T₁ T₂ : Memory → Memory} (h₁ : Paints (tensorAddr d K₁) (tensorByte d val) T₁)
    (h₂ : Paints (tensorAddr d K₂) (tensorByte d val) T₂) :
    Paints (tensorAddr d (fun k => K₁ k ∨ K₂ k)) (tensorByte d val) (fun m => T₂ (T₁ m)) :=
  paints_congr (fun a => by simp only [tensorAddr]; tauto) (fun _ _ => rfl) (paints_seq h₁ h₂)

theorem paints_tensor_forUpTo {d : Nat} {K : Nat → Nat → Prop} {val : Nat → Word}
    {body : Nat → Memory → Memory} (n : Nat)
    (h : ∀ i < n, Paints (tensorAddr d (K i)) (tensorByte d val) (fun m => body i m)) :
    Paints (tensorAddr d (fun k => ∃ i < n, K i k)) (tensorByte d val)
      (fun m => forUpTo n body m) :=
  paints_congr (fun a => by simp only [tensorAddr]; tauto) (fun _ _ => rfl) (paints_forUpTo n h)

/-! ### The kernels -/

/-- `convertSamples` paints elements `base` to `base + count - 1` of a tensor (R120). -/
theorem paints_convertSamples {frame : Memory} {src d base count : Nat} {val : Nat → Word}
    (hv : ∀ i < count, val (base + i) = normByte (frame.read (src + i))) :
    Paints (tensorAddr d (fun k => base ≤ k ∧ k < base + count)) (tensorByte d val)
      (convertSamples frame src (d + 4 * base) count) := by
  unfold convertSamples
  refine paints_tensor_congr (K := fun k => ∃ i < count, k = base + i) (fun k => ?_)
    (paints_tensor_forUpTo count fun i hi => ?_)
  · exact ⟨fun ⟨i, hi, hk⟩ => by omega, fun hk => ⟨k - base, by omega, by omega⟩⟩
  · have := paints_writeFloat (d := d) (k := base + i) (hv i hi).symm
    rwa [show d + 4 * (base + i) = d + 4 * base + 4 * i by ring] at this

/-- `tileLuma` paints elements `0` to `width*height - 1` of a tensor (R180). -/
theorem paints_tileLuma {frame : Memory} {src d x y width height frameWidth : Nat}
    {val : Nat → Word}
    (hv : ∀ j < height, ∀ i < width, val (j * width + i) =
      normByte (frame.read (src + (y + j) * frameWidth + (x + i)))) :
    Paints (tensorAddr d (fun k => k < width * height)) (tensorByte d val)
      (tileLuma frame src d x y width height frameWidth) := by
  unfold tileLuma
  refine paints_tensor_congr (K := fun k => ∃ j < height, ∃ i < width, k = j * width + i)
    (fun k => ?_) (paints_tensor_forUpTo height fun j hj =>
      paints_tensor_forUpTo width fun i hi => paints_writeFloat (hv j hj i hi).symm)
  constructor
  · rintro ⟨j, hj, i, hi, rfl⟩
    calc j * width + i < (j + 1) * width := by rw [Nat.succ_mul]; omega
      _ ≤ height * width := Nat.mul_le_mul_right _ hj
      _ = width * height := Nat.mul_comm _ _
  · intro hk
    have hw : 0 < width := Nat.pos_of_ne_zero fun h => by simp [h] at hk
    exact ⟨k / width, by rwa [Nat.div_lt_iff_lt_mul hw, Nat.mul_comm], k % width, Nat.mod_lt _ hw,
      (Nat.div_add_mod' k width).symm⟩

/-- Which elements a 2×2 upsampling of `rows` rows of `cols` samples covers: all of them. -/
theorem upsample_covers {rows cols k : Nat} :
    (∃ r < rows, ∃ c < cols, ∃ dy < 2, ∃ dx < 2,
      k = (2 * r + dy) * (2 * cols) + (2 * c + dx)) ↔ k < 2 * rows * (2 * cols) := by
  constructor
  · rintro ⟨r, hr, c, hc, dy, hdy, dx, hdx, rfl⟩
    calc (2 * r + dy) * (2 * cols) + (2 * c + dx) < (2 * r + dy + 1) * (2 * cols) := by
          rw [Nat.add_mul (2 * r + dy) 1]; omega
      _ ≤ 2 * rows * (2 * cols) := Nat.mul_le_mul_right _ (by omega)
  · intro hk
    have hw : 0 < 2 * cols := Nat.pos_of_ne_zero fun h => by simp [h] at hk
    have h1 : k / (2 * cols) < 2 * rows := by rwa [Nat.div_lt_iff_lt_mul hw]
    have h2 := Nat.mod_lt k hw
    refine ⟨k / (2 * cols) / 2, by omega, k % (2 * cols) / 2, by omega, k / (2 * cols) % 2,
      by omega, k % (2 * cols) % 2, by omega, ?_⟩
    rw [show 2 * (k / (2 * cols) / 2) + k / (2 * cols) % 2 = k / (2 * cols) by omega,
      show 2 * (k % (2 * cols) / 2) + k % (2 * cols) % 2 = k % (2 * cols) by omega]
    exact (Nat.div_add_mod' k (2 * cols)).symm

/-- `i420Block` paints the four elements of its block (R160). -/
theorem paints_i420Block {frame : Memory} {pSrc stride cols d base r c : Nat} {val : Nat → Word}
    (hv : ∀ dy < 2, ∀ dx < 2, val (base + ((2 * r + dy) * (2 * cols) + (2 * c + dx))) =
      normByte (frame.read (pSrc + r * stride + c))) :
    Paints (tensorAddr d fun k => ∃ dy < 2, ∃ dx < 2,
        k = base + ((2 * r + dy) * (2 * cols) + (2 * c + dx)))
      (tensorByte d val) (i420Block frame pSrc stride cols (d + 4 * base) r c) := by
  unfold i420Block
  refine paints_tensor_forUpTo 2 fun dy hdy => paints_tensor_forUpTo 2 fun dx hdx => ?_
  have := paints_writeFloat (d := d) (hv dy hdy dx hdx).symm
  rwa [show d + 4 * (base + ((2 * r + dy) * (2 * cols) + (2 * c + dx))) =
    d + 4 * base + 4 * ((2 * r + dy) * (2 * cols) + (2 * c + dx)) by ring] at this

/-- `i420Upsample` paints `2*rows` rows of `2*cols` elements from element `base` on (R160). -/
theorem paints_i420Upsample {frame : Memory} {pSrc stride rows cols d base : Nat}
    {val : Nat → Word}
    (hv : ∀ j < 2 * rows, ∀ i < 2 * cols, val (base + (j * (2 * cols) + i)) =
      normByte (frame.read (pSrc + j / 2 * stride + i / 2))) :
    Paints (tensorAddr d (fun k => base ≤ k ∧ k < base + 2 * rows * (2 * cols))) (tensorByte d val)
      (i420Upsample frame pSrc stride rows cols (d + 4 * base)) := by
  unfold i420Upsample
  refine paints_tensor_congr (K := fun k => ∃ r < rows, ∃ c < cols, ∃ dy < 2, ∃ dx < 2,
      k = base + ((2 * r + dy) * (2 * cols) + (2 * c + dx))) (fun k => ?_)
    (paints_tensor_forUpTo rows fun r hr => paints_tensor_forUpTo cols fun c hc =>
      paints_i420Block fun dy hdy dx hdx => ?_)
  · constructor
    · rintro ⟨r, hr, c, hc, dy, hdy, dx, hdx, rfl⟩
      have := upsample_covers.1 ⟨r, hr, c, hc, dy, hdy, dx, hdx, rfl⟩
      omega
    · rintro ⟨h1, h2⟩
      obtain ⟨r, hr, c, hc, dy, hdy, dx, hdx, hk⟩ :=
        (upsample_covers (rows := rows) (cols := cols) (k := k - base)).2 (by omega)
      exact ⟨r, hr, c, hc, dy, hdy, dx, hdx, by omega⟩
  · have h := hv (2 * r + dy) (by omega) (2 * c + dx) (by omega)
    rwa [show (2 * r + dy) / 2 = r by omega, show (2 * c + dx) / 2 = c by omega] at h

/-- Which elements the NV12 upsampling covers: both planes, one behind the other. -/
theorem nv12_covers {base rows cols k : Nat} :
    (∃ r < rows, ∃ c < cols, ∃ dy < 2, ∃ dx < 2,
      k = base + ((2 * r + dy) * (2 * cols) + (2 * c + dx)) ∨
      k = base + 2 * rows * (2 * cols) + ((2 * r + dy) * (2 * cols) + (2 * c + dx))) ↔
      base ≤ k ∧ k < base + 2 * (2 * rows * (2 * cols)) := by
  constructor
  · rintro ⟨r, hr, c, hc, dy, hdy, dx, hdx, hk⟩
    have := upsample_covers.1 ⟨r, hr, c, hc, dy, hdy, dx, hdx, rfl⟩
    omega
  · rintro ⟨h1, h2⟩
    by_cases hs : k < base + 2 * rows * (2 * cols)
    · obtain ⟨r, hr, c, hc, dy, hdy, dx, hdx, hk⟩ :=
        (upsample_covers (rows := rows) (cols := cols) (k := k - base)).2 (by omega)
      exact ⟨r, hr, c, hc, dy, hdy, dx, hdx, .inl (by omega)⟩
    · obtain ⟨r, hr, c, hc, dy, hdy, dx, hdx, hk⟩ :=
        (upsample_covers (rows := rows) (cols := cols)
          (k := k - base - 2 * rows * (2 * cols))).2 (by omega)
      exact ⟨r, hr, c, hc, dy, hdy, dx, hdx, .inr (by omega)⟩

/-- `nv12Block` paints the four elements of its block in both planes (R140). -/
theorem paints_nv12Block {frame : Memory} {uvSrc width d base base' r c : Nat} {val : Nat → Word}
    (hu : ∀ dy < 2, ∀ dx < 2, val (base + ((2 * r + dy) * width + (2 * c + dx))) =
      normByte (frame.read (uvSrc + r * width + 2 * c)))
    (hv : ∀ dy < 2, ∀ dx < 2, val (base' + ((2 * r + dy) * width + (2 * c + dx))) =
      normByte (frame.read (uvSrc + r * width + 2 * c + 1))) :
    Paints (tensorAddr d fun k => ∃ dy < 2, ∃ dx < 2,
        k = base + ((2 * r + dy) * width + (2 * c + dx)) ∨
        k = base' + ((2 * r + dy) * width + (2 * c + dx)))
      (tensorByte d val) (nv12Block frame uvSrc (d + 4 * base) (d + 4 * base') width r c) := by
  unfold nv12Block
  refine paints_tensor_forUpTo 2 fun dy hdy => paints_tensor_forUpTo 2 fun dx hdx => ?_
  have := paints_tensor_seq (paints_writeFloat (d := d) (hu dy hdy dx hdx).symm)
    (paints_writeFloat (hv dy hdy dx hdx).symm)
  rwa [show d + 4 * (base + ((2 * r + dy) * width + (2 * c + dx))) =
      d + 4 * base + 4 * ((2 * r + dy) * width + (2 * c + dx)) by ring,
    show d + 4 * (base' + ((2 * r + dy) * width + (2 * c + dx))) =
      d + 4 * base' + 4 * ((2 * r + dy) * width + (2 * c + dx)) by ring] at this

/-- `nv12Upsample` paints the U plane from element `base` on and the V plane behind it (R140). -/
theorem paints_nv12Upsample {frame : Memory} {uvSrc rows cols d base : Nat} {val : Nat → Word}
    (hu : ∀ j < 2 * rows, ∀ i < 2 * cols, val (base + (j * (2 * cols) + i)) =
      normByte (frame.read (uvSrc + j / 2 * (2 * cols) + 2 * (i / 2))))
    (hv : ∀ j < 2 * rows, ∀ i < 2 * cols,
      val (base + 2 * rows * (2 * cols) + (j * (2 * cols) + i)) =
        normByte (frame.read (uvSrc + j / 2 * (2 * cols) + 2 * (i / 2) + 1))) :
    Paints (tensorAddr d (fun k => base ≤ k ∧ k < base + 2 * (2 * rows * (2 * cols))))
      (tensorByte d val)
      (nv12Upsample frame uvSrc (d + 4 * base) (d + 4 * (base + 2 * rows * (2 * cols))) (2 * cols)
        cols rows) := by
  unfold nv12Upsample
  refine paints_tensor_congr (fun k => nv12_covers)
    (paints_tensor_forUpTo rows fun r hr => paints_tensor_forUpTo cols fun c hc =>
      paints_nv12Block (fun dy hdy dx hdx => ?_) (fun dy hdy dx hdx => ?_))
  · have h := hu (2 * r + dy) (by omega) (2 * c + dx) (by omega)
    rwa [show (2 * r + dy) / 2 = r by omega, show (2 * c + dx) / 2 = c by omega] at h
  · have h := hv (2 * r + dy) (by omega) (2 * c + dx) (by omega)
    rwa [show (2 * r + dy) / 2 = r by omega, show (2 * c + dx) / 2 = c by omega] at h

/-! ### The upscaler -/

/-- The output byte at row `v`, column `u` of the upscaled channel (R200, R203). -/
def upscaledByte (channel : Memory) (src w h v u : Nat) : Byte :=
  let tl := clampedSample channel src w h (v / 2) (u / 2)
  let tr := clampedSample channel src w h (v / 2) (u / 2 + 1)
  let bl := clampedSample channel src w h (v / 2 + 1) (u / 2)
  let br := clampedSample channel src w h (v / 2 + 1) (u / 2 + 1)
  if v % 2 = 0 then if u % 2 = 0 then tl else roundAvg tl tr
  else if u % 2 = 0 then roundAvg tl bl else diagonalAvg tl tr bl br

/-- `upscaleChannel` paints `2*h` rows of `2*w` bytes (R200). -/
theorem paints_upscaleChannel {channel : Memory} {src d w h : Nat} :
    Paints (fun a => d ≤ a ∧ a < d + 2 * h * (2 * w))
      (fun a => upscaledByte channel src w h ((a - d) / (2 * w)) ((a - d) % (2 * w)))
      (upscaleChannel channel src d w h) := by
  unfold upscaleChannel
  refine paints_congr (Q := fun a => ∃ y < h, ∃ x < w, ∃ dy < 2, ∃ dx < 2,
      a = d + ((2 * y + dy) * (2 * w) + (2 * x + dx))) (fun a => ?_) (fun _ _ => rfl)
    (paints_forUpTo h fun y hy => paints_forUpTo w fun x hx => ?_)
  · constructor
    · rintro ⟨r, hr, c, hc, dy, hdy, dx, hdx, rfl⟩
      have := upsample_covers.1 ⟨r, hr, c, hc, dy, hdy, dx, hdx, rfl⟩
      omega
    · rintro ⟨h1, h2⟩
      obtain ⟨r, hr, c, hc, dy, hdy, dx, hdx, hk⟩ :=
        (upsample_covers (rows := h) (cols := w) (k := a - d)).2 (by omega)
      exact ⟨r, hr, c, hc, dy, hdy, dx, hdx, by omega⟩
  · have hq : ∀ dy < 2, ∀ dx < 2,
        (upscaledAddress d w (2 * y + dy) (2 * x + dx) - d) / (2 * w) = 2 * y + dy ∧
        (upscaledAddress d w (2 * y + dy) (2 * x + dx) - d) % (2 * w) = 2 * x + dx := by
      intro dy hdy dx hdx
      have hlt : 2 * x + dx < 2 * w := by omega
      have he : upscaledAddress d w (2 * y + dy) (2 * x + dx) - d =
          2 * x + dx + 2 * w * (2 * y + dy) := by
        rw [upscaledAddress, Nat.mul_comm (2 * w)]; omega
      rw [he, Nat.add_mul_div_left _ _ (by omega), Nat.add_mul_mod_self_left,
        Nat.div_eq_of_lt hlt, Nat.mod_eq_of_lt hlt, Nat.zero_add]
      exact ⟨rfl, rfl⟩
    have hy2 : (2 * y + 1) / 2 = y := by omega
    have hx2 : (2 * x + 1) / 2 = x := by omega
    refine paints_congr (T := upscalePixel channel src d w h y x) (fun a => ?_) (fun _ _ => rfl)
      (paints_seq
        (T₁ := fun m => ((m.write (upscaledAddress d w (2 * y) (2 * x)) _).write
          (upscaledAddress d w (2 * y) (2 * x + 1)) _).write
          (upscaledAddress d w (2 * y + 1) (2 * x)) _)
        (paints_seq
          (T₁ := fun m => (m.write (upscaledAddress d w (2 * y) (2 * x)) _).write
            (upscaledAddress d w (2 * y) (2 * x + 1)) _)
          (paints_seq
            (paints_write (a := upscaledAddress d w (2 * y) (2 * x)) ?_)
            (paints_write (a := upscaledAddress d w (2 * y) (2 * x + 1)) ?_))
          (paints_write (a := upscaledAddress d w (2 * y + 1) (2 * x)) ?_))
        (paints_write (a := upscaledAddress d w (2 * y + 1) (2 * x + 1)) ?_))
    · simp only [upscaledAddress, Nat.add_assoc]
      constructor
      · rintro (((h | h) | h) | h)
        · exact ⟨0, by omega, 0, by omega, h⟩
        · exact ⟨0, by omega, 1, by omega, h⟩
        · exact ⟨1, by omega, 0, by omega, h⟩
        · exact ⟨1, by omega, 1, by omega, h⟩
      · rintro ⟨dy, hdy, dx, hdx, h⟩
        interval_cases dy <;> interval_cases dx <;> simp_all
    · have := hq 0 (by omega) 0 (by omega)
      simp only [Nat.add_zero] at this
      simp [upscaledByte, this.1, this.2]
    · have := hq 0 (by omega) 1 (by omega)
      simp only [Nat.add_zero] at this
      simp [upscaledByte, this.1, this.2, hx2, Nat.add_mod]
    · have := hq 1 (by omega) 0 (by omega)
      simp only [Nat.add_zero] at this
      simp [upscaledByte, this.1, this.2, hy2, Nat.add_mod]
    · have := hq 1 (by omega) 1 (by omega)
      simp [upscaledByte, this.1, this.2, hx2, hy2, Nat.add_mod]

end Sys2Proof.Machine
end

