-- ==== Sys2Proof/Laws/State.lean ====
section
/-!
SUPPORT. Laws/State.lean: what each shared state update does to each field, so that no proof unfolds a
record update.
-/

namespace Sys2Proof.Machine

/-! ### `latchPacket` -/

@[simp] theorem latchPacket_mem (p : Packet) (d : Bool) (s : State) :
    (latchPacket p d s).mem = s.mem := rfl
@[simp] theorem latchPacket_memSize (p : Packet) (d : Bool) (s : State) :
    (latchPacket p d s).memSize = s.memSize := rfl
@[simp] theorem latchPacket_status (p : Packet) (d : Bool) (s : State) :
    (latchPacket p d s).status = .busy := rfl
@[simp] theorem latchPacket_opcode (p : Packet) (d : Bool) (s : State) :
    (latchPacket p d s).opcode = p.opcode := rfl
@[simp] theorem latchPacket_rsv0 (p : Packet) (d : Bool) (s : State) :
    (latchPacket p d s).rsv0 = p.rsv0 := rfl
@[simp] theorem latchPacket_x (p : Packet) (d : Bool) (s : State) :
    (latchPacket p d s).x = #v[p.w1, p.w2, p.w3, p.w4, p.w5, p.w6, p.w7, p.w8] := rfl
@[simp] theorem latchPacket_cmdChan (p : Packet) (d : Bool) (s : State) :
    (latchPacket p d s).cmdChan = s.cmdChan := rfl
@[simp] theorem latchPacket_rspChan (p : Packet) (d : Bool) (s : State) :
    (latchPacket p d s).rspChan = s.rspChan := rfl
@[simp] theorem latchPacket_host (p : Packet) (d : Bool) (s : State) :
    (latchPacket p d s).host = s.host := rfl
@[simp] theorem latchPacket_hostReads (p : Packet) (d : Bool) (s : State) :
    (latchPacket p d s).hostReads = s.hostReads := rfl
@[simp] theorem latchPacket_disturbed (p : Packet) (d : Bool) (s : State) :
    (latchPacket p d s).disturbed = d := rfl
@[simp] theorem latchPacket_free (p : Packet) (d : Bool) (s : State) :
    (latchPacket p d s).free = s.free := rfl

/-! ### `releaseLatches` -/

@[simp] theorem releaseLatches_mem (s : State) : (releaseLatches s).mem = s.mem := rfl
@[simp] theorem releaseLatches_memSize (s : State) : (releaseLatches s).memSize = s.memSize := rfl
@[simp] theorem releaseLatches_status (s : State) : (releaseLatches s).status = s.status := rfl
@[simp] theorem releaseLatches_opcode (s : State) :
    (releaseLatches s).opcode = (Config.freeWord s.free 8).extractLsb' 0 8 := rfl
@[simp] theorem releaseLatches_rsv0 (s : State) :
    (releaseLatches s).rsv0 = (Config.freeWord s.free 8).extractLsb' 8 24 := rfl
@[simp] theorem releaseLatches_x (s : State) :
    (releaseLatches s).x = #v[Config.freeWord s.free 0, Config.freeWord s.free 1, Config.freeWord s.free 2, Config.freeWord s.free 3, Config.freeWord s.free 4, Config.freeWord s.free 5, Config.freeWord s.free 6, Config.freeWord s.free 7] := rfl
@[simp] theorem releaseLatches_cmdChan (s : State) : (releaseLatches s).cmdChan = s.cmdChan := rfl
@[simp] theorem releaseLatches_rspChan (s : State) : (releaseLatches s).rspChan = s.rspChan := rfl
@[simp] theorem releaseLatches_host (s : State) : (releaseLatches s).host = s.host := rfl
@[simp] theorem releaseLatches_hostReads (s : State) :
    (releaseLatches s).hostReads = s.hostReads := rfl
@[simp] theorem releaseLatches_disturbed (s : State) : (releaseLatches s).disturbed = false := rfl
@[simp] theorem releaseLatches_free (s : State) : (releaseLatches s).free = s.free + 1 := rfl

/-! ### `deliverResponse` -/

@[simp] theorem deliverResponse_mem (rsp : Word) (s : State) :
    (deliverResponse rsp s).mem = s.mem := rfl
@[simp] theorem deliverResponse_memSize (rsp : Word) (s : State) :
    (deliverResponse rsp s).memSize = s.memSize := rfl
@[simp] theorem deliverResponse_status (rsp : Word) (s : State) :
    (deliverResponse rsp s).status = .idle := rfl
@[simp] theorem deliverResponse_opcode (rsp : Word) (s : State) :
    (deliverResponse rsp s).opcode = (Config.freeWord s.free 8).extractLsb' 0 8 := rfl
@[simp] theorem deliverResponse_rsv0 (rsp : Word) (s : State) :
    (deliverResponse rsp s).rsv0 = (Config.freeWord s.free 8).extractLsb' 8 24 := rfl
@[simp] theorem deliverResponse_x (rsp : Word) (s : State) :
    (deliverResponse rsp s).x = #v[Config.freeWord s.free 0, Config.freeWord s.free 1, Config.freeWord s.free 2, Config.freeWord s.free 3, Config.freeWord s.free 4, Config.freeWord s.free 5, Config.freeWord s.free 6, Config.freeWord s.free 7] := rfl
@[simp] theorem deliverResponse_cmdChan (rsp : Word) (s : State) :
    (deliverResponse rsp s).cmdChan = s.cmdChan := rfl
@[simp] theorem deliverResponse_rspChan (rsp : Word) (s : State) :
    (deliverResponse rsp s).rspChan = s.rspChan ++ [rsp] := rfl
@[simp] theorem deliverResponse_host (rsp : Word) (s : State) :
    (deliverResponse rsp s).host = s.host := rfl
@[simp] theorem deliverResponse_hostReads (rsp : Word) (s : State) :
    (deliverResponse rsp s).hostReads = s.hostReads := rfl
@[simp] theorem deliverResponse_disturbed (rsp : Word) (s : State) :
    (deliverResponse rsp s).disturbed = false := rfl
@[simp] theorem deliverResponse_free (rsp : Word) (s : State) :
    (deliverResponse rsp s).free = s.free + 1 := rfl

/-! ### `scrambleRegion` -/

@[simp] theorem scrambleRegion_mem (s : State) :
    (scrambleRegion s).mem = freeFill s.free 0 s.memSize [] := rfl
@[simp] theorem scrambleRegion_memSize (s : State) : (scrambleRegion s).memSize = s.memSize := rfl
@[simp] theorem scrambleRegion_status (s : State) : (scrambleRegion s).status = s.status := rfl
@[simp] theorem scrambleRegion_opcode (s : State) : (scrambleRegion s).opcode = s.opcode := rfl
@[simp] theorem scrambleRegion_rsv0 (s : State) : (scrambleRegion s).rsv0 = s.rsv0 := rfl
@[simp] theorem scrambleRegion_x (s : State) : (scrambleRegion s).x = s.x := rfl
@[simp] theorem scrambleRegion_cmdChan (s : State) : (scrambleRegion s).cmdChan = s.cmdChan := rfl
@[simp] theorem scrambleRegion_rspChan (s : State) : (scrambleRegion s).rspChan = s.rspChan := rfl
@[simp] theorem scrambleRegion_host (s : State) : (scrambleRegion s).host = s.host := rfl
@[simp] theorem scrambleRegion_hostReads (s : State) :
    (scrambleRegion s).hostReads = s.hostReads := rfl
@[simp] theorem scrambleRegion_disturbed (s : State) :
    (scrambleRegion s).disturbed = s.disturbed := rfl
@[simp] theorem scrambleRegion_free (s : State) : (scrambleRegion s).free = s.free + 1 := rfl

/-! ### `hostPresent` -/

@[simp] theorem hostPresent_mem (p : Packet) (s : State) : (hostPresent p s).mem = s.mem := rfl
@[simp] theorem hostPresent_memSize (p : Packet) (s : State) :
    (hostPresent p s).memSize = s.memSize := rfl
@[simp] theorem hostPresent_status (p : Packet) (s : State) :
    (hostPresent p s).status = s.status := rfl
@[simp] theorem hostPresent_opcode (p : Packet) (s : State) :
    (hostPresent p s).opcode = s.opcode := rfl
@[simp] theorem hostPresent_rsv0 (p : Packet) (s : State) : (hostPresent p s).rsv0 = s.rsv0 := rfl
@[simp] theorem hostPresent_x (p : Packet) (s : State) : (hostPresent p s).x = s.x := rfl
@[simp] theorem hostPresent_cmdChan (p : Packet) (s : State) :
    (hostPresent p s).cmdChan = s.cmdChan ++ [⟨p, false⟩] := rfl
@[simp] theorem hostPresent_rspChan (p : Packet) (s : State) :
    (hostPresent p s).rspChan = s.rspChan := rfl
@[simp] theorem hostPresent_host (p : Packet) (s : State) : (hostPresent p s).host = s.host := rfl
@[simp] theorem hostPresent_hostReads (p : Packet) (s : State) :
    (hostPresent p s).hostReads = s.hostReads := rfl
@[simp] theorem hostPresent_disturbed (p : Packet) (s : State) :
    (hostPresent p s).disturbed = s.disturbed := rfl
@[simp] theorem hostPresent_free (p : Packet) (s : State) : (hostPresent p s).free = s.free := rfl

/-! ### `withFetchWord` -/

@[simp] theorem withFetchWord_mem (s : State) (n w : Nat) : (s.withFetchWord n w).mem = s.mem := rfl
@[simp] theorem withFetchWord_memSize (s : State) (n w : Nat) :
    (s.withFetchWord n w).memSize = s.memSize := rfl
@[simp] theorem withFetchWord_status (s : State) (n w : Nat) :
    (s.withFetchWord n w).status = .busy := rfl
@[simp] theorem withFetchWord_opcode (s : State) (n w : Nat) :
    (s.withFetchWord n w).opcode = (tablePacket n w).opcode := rfl
@[simp] theorem withFetchWord_rsv0 (s : State) (n w : Nat) :
    (s.withFetchWord n w).rsv0 = (tablePacket n w).rsv0 := rfl
@[simp] theorem withFetchWord_x (s : State) (n w : Nat) :
    (s.withFetchWord n w).x = #v[(tablePacket n w).w1, (tablePacket n w).w2, (tablePacket n w).w3, (tablePacket n w).w4, (tablePacket n w).w5, (tablePacket n w).w6, (tablePacket n w).w7, (tablePacket n w).w8] := rfl
@[simp] theorem withFetchWord_cmdChan (s : State) (n w : Nat) :
    (s.withFetchWord n w).cmdChan = s.cmdChan := rfl
@[simp] theorem withFetchWord_rspChan (s : State) (n w : Nat) :
    (s.withFetchWord n w).rspChan = s.rspChan := rfl
@[simp] theorem withFetchWord_host (s : State) (n w : Nat) :
    (s.withFetchWord n w).host = .engineTurn :: s.host := rfl
@[simp] theorem withFetchWord_hostReads (s : State) (n w : Nat) :
    (s.withFetchWord n w).hostReads = s.hostReads := rfl
@[simp] theorem withFetchWord_disturbed (s : State) (n w : Nat) :
    (s.withFetchWord n w).disturbed = false := rfl
@[simp] theorem withFetchWord_free (s : State) (n w : Nat) :
    (s.withFetchWord n w).free = s.free := rfl

/-! ### `hostReset` -/

@[simp] theorem hostReset_memSize (s : State) :
    (hostReset s).memSize = s.memSize := by
  simp only [hostReset, releaseLatches, regionAfterReset]
  repeat' split
  all_goals rfl
@[simp] theorem hostReset_status (s : State) : (hostReset s).status = .idle := rfl
@[simp] theorem hostReset_cmdChan (s : State) : (hostReset s).cmdChan = [] := rfl
@[simp] theorem hostReset_rspChan (s : State) : (hostReset s).rspChan = [] := rfl
@[simp] theorem hostReset_host (s : State) :
    (hostReset s).host = s.host := by
  simp only [hostReset, releaseLatches, regionAfterReset]
  repeat' split
  all_goals rfl
@[simp] theorem hostReset_hostReads (s : State) :
    (hostReset s).hostReads = s.hostReads := by
  simp only [hostReset, releaseLatches, regionAfterReset]
  repeat' split
  all_goals rfl
@[simp] theorem hostReset_disturbed (s : State) : (hostReset s).disturbed = false := rfl
/-! ### The latches hold the accepted packet -/

/-- What acceptance latches is the packet that was accepted: header bits and operand words (R73). -/
@[simp] theorem latchedPacket_latchPacket (p : Packet) (d : Bool) (s : State) :
    latchedPacket (latchPacket p d s) = p := by
  have h : p.rsv0 ++ p.opcode = p.w0 := by
    simp only [Packet.rsv0, Packet.opcode]
    ext i hi
    simp only [BitVec.getElem_append, BitVec.getElem_extractLsb', Nat.zero_add]
    split
    · exact BitVec.getLsbD_eq_getElem hi
    · rename_i h8
      rw [show 8 + (i - 8) = i by omega]
      exact BitVec.getLsbD_eq_getElem hi
  cases p
  simpa [latchedPacket, latchPacket] using h

end Sys2Proof.Machine
end

