-- ==== Sys2Proof/Laws/Ops.lean ====
section
/-!
SUPPORT. Laws/Ops.lean: what running a command, the engine's turn and one step can do, said once.
-/

namespace Sys2Proof.Machine

/-- Every command is `runCommand` over its own result. -/
theorem exec_eq_runCommand (i : Instr) (s : State) : exec i s = runCommand i (commandResult i) s := by
  cases i <;> rfl

/-- Outcome `OK`: the result is the region, and the call is answered. -/
theorem exec_of_callOk {i : Instr} {s : State} (h : callOk i s = true) :
    exec i s = .next (deliverResponse responseLegal { s with mem := commandResult i s.mem }) := by
  rw [exec_eq_runCommand, runCommand, if_pos h]

/-- Outcome `UNSPEC`: every byte of the region is free, and the call is answered. -/
theorem exec_of_not_callOk {i : Instr} {s : State} (h : callOk i s = false) :
    exec i s = .next (deliverResponse responseLegal (scrambleRegion s)) := by
  rw [exec_eq_runCommand, runCommand, if_neg (by simp [h])]

theorem callOk_iff (i : Instr) (s : State) :
    callOk i s = true ↔ preconditions i s.memSize = true ∧ s.disturbed = false := by
  simp [callOk]

/-- Delivering a response answers the call. -/
theorem answered_deliverResponse (rsp : Word) (s : State) :
    Answered s (deliverResponse rsp s) rsp :=
  ⟨rfl, rfl, rfl, rfl, rfl, rfl, rfl⟩

/-- A command always has a next state, of one of these two forms. -/
theorem exec_cases {i : Instr} {s t : State} (h : exec i s = .next t) :
    (callOk i s = true ∧
      t = deliverResponse responseLegal { s with mem := commandResult i s.mem }) ∨
    (callOk i s = false ∧ t = deliverResponse responseLegal (scrambleRegion s)) := by
  cases hc : callOk i s with
  | true =>
    rw [exec_of_callOk hc] at h
    exact .inl ⟨rfl, (Host.Outcome.next.inj h).symm⟩
  | false =>
    rw [exec_of_not_callOk hc] at h
    exact .inr ⟨rfl, (Host.Outcome.next.inj h).symm⟩

/-- What the engine's turn can do. -/
theorem engineStep_cases {s t : State} (h : engineStep s = .next t) :
    (s.status = .idle ∧ s.cmdChan = [] ∧ t = s) ∨
    (∃ p rest, s.status = .idle ∧ s.cmdChan = p :: rest ∧
      t = latchPacket p.packet p.disturbed { s with cmdChan := rest }) ∨
    (∃ i, s.status = .busy ∧ decode (latchedPacket s) = .legal i ∧ exec i s = .next t) ∨
    (∃ why, s.status = .busy ∧ decode (latchedPacket s) = .illegal why ∧
      t = raiseIllegalCommand s) := by
  unfold engineStep at h
  cases hs : s.status with
  | idle =>
    rw [hs] at h
    have ht : acceptPacket s = t := Host.Outcome.next.inj h
    cases hc : s.cmdChan with
    | nil =>
      rw [acceptPacket, hc] at ht
      exact .inl ⟨rfl, rfl, ht.symm⟩
    | cons p rest =>
      rw [acceptPacket, hc] at ht
      exact .inr (.inl ⟨p, rest, rfl, rfl, ht.symm⟩)
  | busy =>
    rw [hs] at h
    cases hd : decode (latchedPacket s) with
    | legal i =>
      rw [hd] at h
      exact .inr (.inr (.inl ⟨i, rfl, rfl, h⟩))
    | illegal why =>
      rw [hd] at h
      exact .inr (.inr (.inr ⟨why, rfl, rfl, (Host.Outcome.next.inj h).symm⟩))

/-- Where the engine is next, the step is the engine's turn. -/
theorem step_of_engineIsNext {s : State} (h : engineIsNext s = true) :
    step s = engineStep (engineState s) := by
  unfold step engineState
  unfold engineIsNext at h
  split <;> simp_all

/-- What one step can do. -/
theorem step_cases {s t : State} (h : step s = .next t) :
    (engineIsNext s = true ∧ engineStep (engineState s) = .next t) ∨
    (∃ p rest, s.host = .present p :: rest ∧ t = hostPresent p { s with host := rest }) ∨
    (∃ a b rest, s.host = .write a b :: rest ∧ hostWrite a b { s with host := rest } = .next t) ∨
    (∃ a rest, s.host = .read a :: rest ∧ hostRead a { s with host := rest } = .next t) ∨
    (∃ r later rest, s.host = .takeResponse :: rest ∧ s.rspChan = r :: later ∧
      t = { s with rspChan := later, host := rest }) ∨
    (∃ n rest, s.host = .grow n :: rest ∧ hostGrow n { s with host := rest } = .next t) ∨
    (∃ rest, s.host = .assertReset :: rest ∧ t = hostReset { s with host := rest }) := by
  cases hn : engineIsNext s with
  | true => exact .inl ⟨rfl, (step_of_engineIsNext hn).symm.trans h⟩
  | false =>
    refine .inr ?_
    unfold step at h
    unfold engineIsNext at hn
    split at h
    · simp_all
    · simp_all
    · exact .inl ⟨_, _, ‹_›, (Host.Outcome.next.inj h).symm⟩
    · exact .inr (.inl ⟨_, _, _, ‹_›, h⟩)
    · exact .inr (.inr (.inl ⟨_, _, ‹_›, h⟩))
    · split at h
      · simp_all
      · exact .inr (.inr (.inr (.inl ⟨_, _, _, ‹_›, ‹_›, (Host.Outcome.next.inj h).symm⟩)))
    · exact .inr (.inr (.inr (.inr (.inl ⟨_, _, ‹_›, h⟩))))
    · exact .inr (.inr (.inr (.inr (.inr ⟨_, ‹_›, (Host.Outcome.next.inj h).symm⟩))))

/-- What a host write can do. -/
theorem hostWrite_cases {a : Nat} {b : Byte} {s t : State} (h : hostWrite a b s = .next t) :
    a < s.memSize ∧ t = { s with
      mem := s.mem.write a b
      disturbed := s.disturbed || disturbsRunning s a
      cmdChan := s.cmdChan.map fun p => ⟨p.packet, p.disturbed || packetUses p.packet a⟩ } := by
  unfold hostWrite at h
  split at h
  · exact ⟨‹_›, (Host.Outcome.next.inj h).symm⟩
  · cases h

/-- What a host read can do. -/
theorem hostRead_cases {a : Nat} {s t : State} (h : hostRead a s = .next t) :
    a < s.memSize ∧
      ((readIsUnspecified s a = true ∧
        t = { s with hostReads := s.hostReads ++ [Config.freeByte s.free a], free := s.free + 1 }) ∨
      (readIsUnspecified s a = false ∧ t = { s with hostReads := s.hostReads ++ [s.mem.read a] })) := by
  unfold hostRead at h
  split at h
  · refine ⟨‹_›, ?_⟩
    split at h
    · exact .inl ⟨‹_›, (Host.Outcome.next.inj h).symm⟩
    · exact .inr ⟨eq_false_of_ne_true ‹_›, (Host.Outcome.next.inj h).symm⟩
  · cases h

/-- What growing the region can do. -/
theorem hostGrow_cases {n : Nat} {s t : State} (h : hostGrow n s = .next t) :
    s.status = .idle ∧ s.cmdChan = [] ∧ s.memSize + n ≤ Config.addressSpace ∧
      t = { s with
        mem := freeFill s.free s.memSize n s.mem
        memSize := s.memSize + n
        free := s.free + 1 } := by
  unfold hostGrow at h
  split at h
  · cases h
  · split at h
    · cases h
    · rename_i h1 h2
      refine ⟨?_, ?_, by omega, (Host.Outcome.next.inj h).symm⟩
      · cases hs : s.status
        · rfl
        · exact absurd (.inl hs) h1
      · by_contra hc
        exact h1 (.inr hc)

end Sys2Proof.Machine
end

