-- ==== Sys2Proof/Laws/Host.lean ====
section
/-!
SUPPORT. Laws/Host.lean: the step at each host action as one equation, and what the host operations
answer, so that no proof unfolds `step`.
-/

namespace Sys2Proof.Machine

/-! ### The step at each host action -/

theorem step_present {s : State} {p : Packet} {rest : List HostAction}
    (h : s.host = .present p :: rest) : step s = .next (hostPresent p { s with host := rest }) := by
  rw [step, h]

theorem step_write {s : State} {a : Nat} {b : Byte} {rest : List HostAction}
    (h : s.host = .write a b :: rest) : step s = hostWrite a b { s with host := rest } := by
  rw [step, h]

theorem step_read {s : State} {a : Nat} {rest : List HostAction}
    (h : s.host = .read a :: rest) : step s = hostRead a { s with host := rest } := by
  rw [step, h]

theorem step_takeResponse {s : State} {r : Word} {later : List Word} {rest : List HostAction}
    (h : s.host = .takeResponse :: rest) (hr : s.rspChan = r :: later) :
    step s = .next { s with rspChan := later, host := rest } := by
  rw [step, h, hr]

theorem step_grow {s : State} {n : Nat} {rest : List HostAction}
    (h : s.host = .grow n :: rest) : step s = hostGrow n { s with host := rest } := by
  rw [step, h]

theorem step_assertReset {s : State} {rest : List HostAction}
    (h : s.host = .assertReset :: rest) : step s = .next (hostReset { s with host := rest }) := by
  rw [step, h]

/-! ### Giving the host its next action changes neither latches nor what is running -/

@[simp] theorem latchedPacket_setHost (s : State) (h : List HostAction) :
    latchedPacket { s with host := h } = latchedPacket s := rfl

@[simp] theorem callOk_setHost (i : Instr) (s : State) (h : List HostAction) :
    callOk i { s with host := h } = callOk i s := rfl

@[simp] theorem runningCommand_setHost (s : State) (h : List HostAction) :
    runningCommand { s with host := h } = runningCommand s := rfl

@[simp] theorem readIsUnspecified_setHost (s : State) (h : List HostAction) (a : Nat) :
    readIsUnspecified { s with host := h } a = readIsUnspecified s a := rfl

@[simp] theorem disturbsRunning_setHost (s : State) (h : List HostAction) (a : Nat) :
    disturbsRunning { s with host := h } a = disturbsRunning s a := rfl

@[simp] theorem engineState_status (s : State) : (engineState s).status = s.status := by
  unfold engineState; split <;> rfl

@[simp] theorem engineState_mem (s : State) : (engineState s).mem = s.mem := by
  unfold engineState; split <;> rfl

@[simp] theorem engineState_memSize (s : State) : (engineState s).memSize = s.memSize := by
  unfold engineState; split <;> rfl

@[simp] theorem engineState_cmdChan (s : State) : (engineState s).cmdChan = s.cmdChan := by
  unfold engineState; split <;> rfl

@[simp] theorem engineState_rspChan (s : State) : (engineState s).rspChan = s.rspChan := by
  unfold engineState; split <;> rfl

@[simp] theorem engineState_disturbed (s : State) : (engineState s).disturbed = s.disturbed := by
  unfold engineState; split <;> rfl

@[simp] theorem engineState_free (s : State) : (engineState s).free = s.free := by
  unfold engineState; split <;> rfl

@[simp] theorem latchedPacket_engineState (s : State) :
    latchedPacket (engineState s) = latchedPacket s := by
  unfold engineState; split <;> rfl

@[simp] theorem callOk_engineState (i : Instr) (s : State) :
    callOk i (engineState s) = callOk i s := by
  simp [callOk]

/-- The engine runs the command in the latches. -/
theorem engineStep_legal {s : State} {i : Instr} (hb : s.status = .busy)
    (hd : decode (latchedPacket s) = .legal i) : engineStep s = exec i s := by
  rw [engineStep, hb]
  simp only [hd]

/-- The engine answers an illegal packet. -/
theorem engineStep_illegal {s : State} {why : IllegalPacket} (hb : s.status = .busy)
    (hd : decode (latchedPacket s) = .illegal why) :
    engineStep s = .next (raiseIllegalCommand s) := by
  rw [engineStep, hb]
  simp only [hd]

/-- An idle engine accepts the oldest presented packet. -/
theorem engineStep_accept {s : State} {p : Presented} {rest : List Presented}
    (hi : s.status = .idle) (hc : s.cmdChan = p :: rest) :
    engineStep s = .next (latchPacket p.packet p.disturbed { s with cmdChan := rest }) := by
  rw [engineStep, hi]
  simp only [acceptPacket, hc]
  rfl

/-! ### The host operations -/

theorem runningCommand_eq {s : State} {i : Instr} (hb : s.status = .busy)
    (hd : decode (latchedPacket s) = .legal i) : runningCommand s = some i := by
  rw [runningCommand, hb]
  simp only [hd]

theorem runningCommand_some {s : State} {i : Instr} (h : runningCommand s = some i) :
    s.status = .busy ∧ decode (latchedPacket s) = .legal i := by
  unfold runningCommand at h
  split at h
  · cases h
  · split at h
    · exact ⟨‹_›, by rw [← Option.some.inj h]; assumption⟩
    · cases h

/-- During a legal command (R63): its output range, or everything if its outcome is `UNSPEC`. -/
theorem readIsUnspecified_running {s : State} {i : Instr} (hb : s.status = .busy)
    (hd : decode (latchedPacket s) = .legal i) (a : Nat) :
    readIsUnspecified s a = (spanHas (outSpan i) a || !callOk i s) := by
  simp only [readIsUnspecified, hb, runningCommand_eq hb hd]

/-- With an idle engine: the output ranges of the presented packets (R266, log entry 10). -/
theorem readIsUnspecified_idle {s : State} (hi : s.status = .idle) (a : Nat) :
    readIsUnspecified s a = s.cmdChan.any fun p => packetWrites p.packet a := by
  simp only [readIsUnspecified, hi]

theorem hostWrite_inside {s : State} {a : Nat} (b : Byte) (ha : a < s.memSize) :
    hostWrite a b s = .next { s with
      mem := s.mem.write a b
      disturbed := s.disturbed || disturbsRunning s a
      cmdChan := s.cmdChan.map fun p => ⟨p.packet, p.disturbed || packetUses p.packet a⟩ } := by
  rw [hostWrite, if_pos ha]

theorem hostRead_free {s : State} {a : Nat} (ha : a < s.memSize)
    (hu : readIsUnspecified s a = true) :
    hostRead a s =
      .next { s with hostReads := s.hostReads ++ [Config.freeByte s.free a], free := s.free + 1 } := by
  rw [hostRead, if_pos ha, if_pos hu]

theorem hostRead_plain {s : State} {a : Nat} (ha : a < s.memSize)
    (hu : readIsUnspecified s a = false) :
    hostRead a s = .next { s with hostReads := s.hostReads ++ [s.mem.read a] } := by
  rw [hostRead, if_pos ha, if_neg (by simp [hu])]

/-- What a reset leaves of the region while an `OK` call is running. -/
theorem hostReset_mem_of_callOk {s : State} {i : Instr} (hr : runningCommand s = some i)
    (hc : callOk i s = true) : (hostReset s).mem =
      freeFill s.free (outSpan i).lo ((outSpan i).hi - (outSpan i).lo) s.mem := by
  simp [hostReset, regionAfterReset, hr, hc]

/-- What a reset leaves of the region while no legal command is running: all of it. -/
theorem hostReset_mem_of_none {s : State} (hr : runningCommand s = none) :
    (hostReset s).mem = s.mem := by
  simp [hostReset, regionAfterReset, hr]

end Sys2Proof.Machine
end

