-- ==== Sys2Proof/Laws/PerInstr.lean ====
section
/-!
SUPPORT. Laws/PerInstr.lean: facts about every command as syntax, one lemma per constructor.
-/

namespace Sys2Proof.Laws

/-- The encoding of a command has a clear reserved field and an opcode from 1 to 5, and the words its
format does not use are 0 (R72, R74, R80). -/
def EncodedHeader.Statement (i : Sys2Proof.Instr) : Prop :=
  (encode i).rsv0 = 0 ∧ 1 ≤ (encode i).opcode.toNat ∧ (encode i).opcode.toNat ≤ 5 ∧
    (i.operands.length = 3 → (encode i).unusedF3Zero = true) ∧
    (i.operands.length = 4 → (encode i).unusedF4Zero = true)

theorem EncodedHeader.yToHw (a b n : Nat) : EncodedHeader.Statement (.yToHw a b n) :=
  ⟨by simp only [encode, Packet.rsv0]; decide, by simp only [encode, Packet.opcode]; decide,
    by simp only [encode, Packet.opcode]; decide,
    fun _ => rfl, fun h => by simp [Instr.operands] at h⟩

theorem EncodedHeader.nv12ToChw (a b w h : Nat) : EncodedHeader.Statement (.nv12ToChw a b w h) :=
  ⟨by simp only [encode, Packet.rsv0]; decide, by simp only [encode, Packet.opcode]; decide,
    by simp only [encode, Packet.opcode]; decide,
    fun h => by simp [Instr.operands] at h, fun _ => rfl⟩

theorem EncodedHeader.i420ToChw (a b w h : Nat) : EncodedHeader.Statement (.i420ToChw a b w h) :=
  ⟨by simp only [encode, Packet.rsv0]; decide, by simp only [encode, Packet.opcode]; decide,
    by simp only [encode, Packet.opcode]; decide,
    fun h => by simp [Instr.operands] at h, fun _ => rfl⟩

theorem EncodedHeader.tileToChw (a b x y w h fw fh : Nat) :
    EncodedHeader.Statement (.tileToChw a b x y w h fw fh) :=
  ⟨by simp only [encode, Packet.rsv0]; decide, by simp only [encode, Packet.opcode]; decide,
    by simp only [encode, Packet.opcode]; decide,
    fun h => by simp [Instr.operands] at h,
    fun h => by simp [Instr.operands] at h⟩

theorem EncodedHeader.bilinearUpscale (a b w h : Nat) :
    EncodedHeader.Statement (.bilinearUpscale a b w h) :=
  ⟨by simp only [encode, Packet.rsv0]; decide, by simp only [encode, Packet.opcode]; decide,
    by simp only [encode, Packet.opcode]; decide,
    fun h => by simp [Instr.operands] at h, fun _ => rfl⟩

end Sys2Proof.Laws
end

