-- ==== Sys2Proof/Machine/Assembler.lean ====
section
/-!
DEFINITION. Machine/Assembler.lean: commands as text (30_encoding.md R85). No step uses it: text is how a
program is written down, and a packet is what reaches the engine.
-/

namespace Sys2Proof

/-- The value of a digit character in a base up to 16. -/
def digitValue (base : Nat) (c : Char) : Option Nat :=
  let v :=
    if '0' ≤ c ∧ c ≤ '9' then c.toNat - '0'.toNat
    else if 'a' ≤ c ∧ c ≤ 'f' then c.toNat - 'a'.toNat + 10
    else if 'A' ≤ c ∧ c ≤ 'F' then c.toNat - 'A'.toNat + 10
    else base
  if v < base then some v else none

/-- The value of a string of digits after what stands to their left. -/
def digitsValue (base : Nat) : Nat → List Char → Option Nat
  | acc, [] => some acc
  | acc, c :: cs =>
    match digitValue base c with
    | some v => digitsValue base (base * acc + v) cs
    | none => none

/-- A decimal or `0x` hexadecimal number (R85). -/
def numberOfText : List Char → Option Nat
  | [] => none
  | '0' :: 'x' :: c :: cs => digitsValue 16 0 (c :: cs)
  | c :: cs => digitsValue 10 0 (c :: cs)

/-- Without the spaces at both ends. -/
def trimSpaces (t : List Char) : List Char :=
  ((t.dropWhile (· == ' ')).reverse.dropWhile (· == ' ')).reverse

/-- The parts between commas. -/
def splitAtCommas : List Char → List (List Char)
  | [] => [[]]
  | c :: cs =>
    if c = ',' then [] :: splitAtCommas cs
    else
      match splitAtCommas cs with
      | [] => [[c]]
      | part :: parts => (c :: part) :: parts

/-- The operands of a line, every part a number. -/
def operandsOfText : List (List Char) → Option (List Nat)
  | [] => some []
  | part :: parts =>
    match numberOfText (trimSpaces part), operandsOfText parts with
    | some v, some vs => some (v :: vs)
    | _, _ => none

/-- The command of a mnemonic and its used operands, in the order of R72. -/
def commandOfParts (name : List Char) (operands : List Nat) : Option Instr :=
  match operands with
  | [a, b, n] => if name = "Y_TO_HW".toList then some (.yToHw a b n) else none
  | [a, b, w, h] =>
    if name = "NV12_TO_CHW".toList then some (.nv12ToChw a b w h)
    else if name = "I420_TO_CHW".toList then some (.i420ToChw a b w h)
    else if name = "BILINEAR_UPSCALE".toList then some (.bilinearUpscale a b w h)
    else none
  | [a, b, x, y, w, h, fw, fh] =>
    if name = "TILE_TO_CHW".toList then some (.tileToChw a b x y w h fw fh) else none
  | _ => none

/-- The command of one line (R85): a mnemonic in capitals, a space, the used operands separated by
commas; a `;` starts a comment. An operand that does not fit its word is no command (R82). -/
def assembleLine (line : List Char) : Option Instr :=
  let body := trimSpaces (line.takeWhile (· != ';'))
  match operandsOfText (splitAtCommas (body.dropWhile (· != ' '))) with
  | none => none
  | some operands =>
    match commandOfParts (body.takeWhile (· != ' ')) operands with
    | none => none
    | some i => if i.wf then some i else none

/-- The text of a command with decimal operands (R85). -/
def Instr.text (i : Instr) : String :=
  i.mnemonic ++ " " ++ String.intercalate ", " (i.operands.map fun v => toString v)

end Sys2Proof
end

