-- ==== Sys2Proof/Tests/Slice0.lean ====
section
/-!
SUPPORT. Tests/Slice0.lean: ill-formed terms, decoding of the spec's words, one step of each command on
the vectors of 95_test_vectors.md, and a witness for the hypotheses of every obligation that has some.
Expected values are copied from 95_test_vectors.md and from R87, never from the model.
-/

namespace Sys2Proof.Tests

open Sys2Proof Sys2Proof.Machine

/-! ### Helpers -/

/-- Bytes stored one after the other from an address. -/
def putBytes : List Byte → Nat → Memory → Memory
  | [], _, m => m
  | b :: bs, a, m => putBytes bs (a + 1) (m.write a b)

/-- The guard byte of 95_test_vectors.md, `n` times. -/
def guardBytes (n : Nat) : List Byte := List.replicate n 0xEE

/-- The engine about to run a command, on a region of 0x2000 bytes. -/
def ready (i : Instr) (m : Memory) : State :=
  latchPacket (encode i) false { State.reset with mem := m, memSize := 0x2000 }

/-- The region after a step. -/
def regionAfter : Host.Outcome State Fault Refusal → Memory
  | .next t => t.mem
  | .fault _ => []
  | .refused _ => []

/-- The region after the engine ran a command on a region. -/
def ran (i : Instr) (m : Memory) : Memory := regionAfter (step (ready i m))

/-- `n` tensor elements from an address. -/
def floatsAt (m : Memory) : Nat → Nat → List Word
  | _, 0 => []
  | a, n + 1 => readFloat m a :: floatsAt m (a + 4) n

/-- Status and responses after a step. -/
def answerAfter : Host.Outcome State Fault Refusal → Option (Status × List Word)
  | .next t => some (t.status, t.rspChan)
  | .fault _ => none
  | .refused _ => none

/-- `MEM[a] = a + base` for `n` addresses: the planes of the frame of T1 to T3. -/
def ramp (base n : Nat) : List Byte := (List.range n).map fun k => BitVec.ofNat 8 (base + k)

/-- The 16×4 frame of T1 to T3. -/
def frameT : Memory := putBytes (ramp 0 64 ++ ramp 0x80 16 ++ ramp 0xC0 16) 0 []

/-! ### WellFormed: an operand that does not fit its word is refused -/

theorem test_wf_yToHw : (Instr.yToHw 0 4294967296 4).wf = false := by decide
theorem test_wf_nv12 : (Instr.nv12ToChw 4294967296 0 4 2).wf = false := by decide
theorem test_wf_i420 : (Instr.i420ToChw 0 0 8 4294967296).wf = false := by decide
theorem test_wf_tile : (Instr.tileToChw 0 0 0 4294967296 8 2 16 4).wf = false := by decide
theorem test_wf_bilinear : (Instr.bilinearUpscale 0 0 4294967296 1).wf = false := by decide
theorem test_wf_largest : (Instr.tileToChw 4294967295 4294967295 4294967295 4294967295 4294967295
    4294967295 4294967295 4294967295).wf = true := by decide

/-! ### Decode: the words of 95_test_vectors.md section 2.7 and R87 -/

theorem test_decode_yToHw :
    decode ⟨0x00000001, 0x00000010, 0x00000100, 0x00000008, 0, 0, 0, 0, 0⟩ =
      .legal (.yToHw 0x10 0x100 8) := by decide
theorem test_decode_nv12 :
    decode ⟨0x00000002, 0x00000000, 0x00000100, 0x00000004, 0x00000002, 0, 0, 0, 0⟩ =
      .legal (.nv12ToChw 0 0x100 4 2) := by decide
theorem test_decode_i420 :
    decode ⟨0x00000003, 0x00000040, 0x00000800, 0x00000008, 0x00000002, 0, 0, 0, 0⟩ =
      .legal (.i420ToChw 0x40 0x800 8 2) := by decide
theorem test_decode_tile :
    decode ⟨0x00000004, 0x00000000, 0x00000400, 0x00000004, 0x00000002, 0x00000008, 0x00000002,
      0x00000010, 0x00000004⟩ = .legal (.tileToChw 0 0x400 4 2 8 2 16 4) := by decide
theorem test_decode_bilinear :
    decode ⟨0x00000005, 0x00000010, 0x00000020, 0x00000002, 0x00000002, 0, 0, 0, 0⟩ =
      .legal (.bilinearUpscale 0x10 0x20 2 2) := by decide
theorem test_decode_tile_largest :
    decode ⟨0x00000004, 0xFFFFFFFF, 0xFFFFFFFF, 0xFFFFFFFF, 0xFFFFFFFF, 0xFFFFFFFF, 0xFFFFFFFF,
      0xFFFFFFFF, 0xFFFFFFFF⟩ = .legal (.tileToChw 4294967295 4294967295 4294967295 4294967295
        4294967295 4294967295 4294967295 4294967295) := by decide
theorem test_decode_opcode_zero :
    decode ⟨0, 0, 0, 0, 0, 0, 0, 0, 0⟩ = .illegal .opcodeZero := by decide
theorem test_decode_opcode_reserved :
    decode ⟨0x00000006, 0x00000010, 0x00000100, 0x00000008, 0, 0, 0, 0, 0⟩ =
        .illegal .opcodeReserved ∧
      decode ⟨0x000000FF, 0, 0, 0, 0, 0, 0, 0, 0⟩ = .illegal .opcodeReserved := by decide
theorem test_decode_reserved_header :
    decode ⟨0x00000101, 0x00000010, 0x00000100, 0x00000008, 0, 0, 0, 0, 0⟩ =
        .illegal .reservedHeaderBits ∧
      decode ⟨0x80000001, 0x00000010, 0x00000100, 0x00000008, 0, 0, 0, 0, 0⟩ =
        .illegal .reservedHeaderBits := by decide
theorem test_decode_unused_word :
    decode ⟨0x00000001, 0x00000010, 0x00000100, 0x00000008, 0x00000001, 0, 0, 0, 0⟩ =
        .illegal .unusedWordNotZero ∧
      decode ⟨0x00000002, 0, 0x00000100, 0x00000004, 0x00000002, 0, 0, 0, 0x00000001⟩ =
        .illegal .unusedWordNotZero := by decide
/-- The row of the opcode table as one number, `W0` lowest, operand words of zeros. -/
theorem test_decodeTableWord :
    decodeTableWord 288 0x00000004 = some (.tileToChw 0 0 0 0 0 0 0 0) ∧
      decodeTableWord 288 0x00000007 = none := by decide
theorem test_encode_bilinear : encode (.bilinearUpscale 0 0x100 2 2) =
    ⟨0x00000005, 0x00000000, 0x00000100, 0x00000002, 0x00000002, 0, 0, 0, 0⟩ := by decide

/-! ### Text: the example of R85, a line of P4, and one in lower case -/

theorem test_assemble_tile :
    assembleLine "TILE_TO_CHW 0x0, 0x400, 4, 2, 8, 2, 16, 4".toList =
      some (.tileToChw 0x0 0x400 4 2 8 2 16 4) := by decide
theorem test_assemble_yToHw :
    assembleLine "Y_TO_HW 0x24, 0x600, 8                      ; 00000001 00000024".toList =
      some (.yToHw 0x24 0x600 8) ∧ assembleLine "y_to_hw 1, 2, 4".toList = none := by decide
theorem test_text : (Instr.yToHw 16 256 8).text = "Y_TO_HW 16, 256, 8" := by decide

/-! ### The normalizer: entries of the table of 95_test_vectors.md section 2.1 -/

theorem test_norm_table :
    [0, 1, 2, 3, 51, 85, 126, 127, 128, 170, 254, 255].map normByte =
      [0x00000000, 0x3B808081, 0x3C008081, 0x3C40C0C1, 0x3E4CCCCD, 0x3EAAAAAB, 0x3EFCFCFD,
        0x3EFEFEFF, 0x3F008081, 0x3F2AAAAB, 0x3F7EFEFF, 0x3F800000] := by decide

/-! ### One step of each command -/

/-- Vector Y1. -/
theorem test_yToHw_Y1 :
    let m := ran (.yToHw 0x10 0x100 8) (putBytes [0x00, 0x01, 0x02, 0x7F, 0x80, 0xFE, 0xFF, 0x33] 0x10
      (putBytes (guardBytes 40) 0xFC []))
    floatsAt m 0x108 2 = [0x3C008081, 0x3EFEFEFF] ∧ floatsAt m 0x11C 1 = [0x3E4CCCCD] ∧
      readBatch m 0xFF 1 = guardBytes 1 ∧ readBatch m 0x120 1 = guardBytes 1 := by decide +kernel

/-- Vector Y2: unaligned offsets, bytes least significant first. -/
theorem test_yToHw_Y2 :
    let m := ran (.yToHw 0x21 0x103 4) (putBytes [0xFF, 0x00, 0x80, 0x40] 0x21 [])
    readBatch m 0x103 16 = [0x00, 0x00, 0x80, 0x3F, 0x00, 0x00, 0x00, 0x00, 0x81, 0x80, 0x00, 0x3F,
      0x81, 0x80, 0x80, 0x3E] := by decide

/-- Vector N2: the rows of the interleaved plane are `width` bytes. -/
theorem test_nv12_N2 :
    let m := ran (.nv12ToChw 0x20 0x200 4 4) (putBytes [0x00, 0x0A, 0x14, 0x1E, 0x28, 0x32, 0x3C, 0x46,
      0x50, 0x5A, 0x64, 0x6E, 0x78, 0x82, 0x8C, 0x96, 0x0A, 0x14, 0x1E, 0x28, 0x32, 0x3C, 0x46, 0x50]
      0x20 [])
    floatsAt m 0x264 2 = [0x3E48C8C9, 0x3E8C8C8D] ∧
      floatsAt m 0x2B4 2 = [0x3E70F0F1, 0x3EA0A0A1] := by decide +kernel

/-- Vector I1. -/
theorem test_i420_I1 :
    let m := ran (.i420ToChw 0x40 0x800 8 2) (putBytes [0x00, 0x10, 0x20, 0x30, 0x40, 0x50, 0x60, 0x70,
      0x80, 0x90, 0xA0, 0xB0, 0xC0, 0xD0, 0xE0, 0xF0, 0x01, 0x02, 0x03, 0x04, 0xFF, 0xFE, 0xFD, 0xFC]
      0x40 [])
    floatsAt m 0x83C 2 = [0x3F70F0F1, 0x3B808081] ∧ floatsAt m 0x86C 2 = [0x3C008081, 0x3C40C0C1] ∧
      floatsAt m 0x8A4 2 = [0x3F800000, 0x3F7EFEFF] := by decide +kernel

/-- Vector T1. -/
theorem test_tile_T1 :
    let m := ran (.tileToChw 0 0x400 4 2 8 2 16 4) frameT
    floatsAt m 0x43C 2 = [0x3E6CECED, 0x3F0A8A8B] ∧ floatsAt m 0x4BC 1 = [0x3F4DCDCE] := by decide +kernel

/-- Vectors T1 and T3: the first U and V address; an odd `y` is halved downward. -/
theorem test_tile_corners :
    tileChromaCorner (tileUBase 0 16 4) 4 2 16 = 0x4A ∧
      tileChromaCorner (tileVBase 0 16 4) 4 2 16 = 0x5A ∧
      tileChromaCorner (tileUBase 0 16 4) 8 1 16 = 0x44 ∧
      tileChromaCorner (tileVBase 0 16 4) 8 1 16 = 0x54 := by decide

/-- Vector B9: neighbours clamped at the right and the bottom edge. -/
theorem test_bilinear_B9 :
    let m := ran (.bilinearUpscale 0 0x100 3 3)
      (putBytes [0x00, 0x64, 0xC8, 0x32, 0x96, 0xFA, 0xFF, 0xFE, 0xFD] 0 [])
    readBatch m 0x106 6 = [0x19, 0x4B, 0x7D, 0xAF, 0xE1, 0xE1] ∧
      readBatch m 0x118 6 = [0xFF, 0xFF, 0xFE, 0xFE, 0xFD, 0xFD] := by decide +kernel

/-- Vectors B7 and B11: two stages, horizontal pairs first. -/
theorem test_bilinear_diagonal :
    (ran (.bilinearUpscale 0 0x100 2 2) (putBytes [0x00, 0x00, 0x00, 0x01] 0 [])).read 0x105 = 0x01 ∧
      (ran (.bilinearUpscale 0 0x100 2 2) (putBytes [0x00, 0x00, 0x01, 0x03] 0 [])).read 0x105
        = 0x01 := by decide

/-! ### Responses and outcome classes -/

/-- P5: a legal command is answered 0, an illegal packet 1. -/
theorem test_responses :
    answerAfter (step (ready (.bilinearUpscale 0x10 0x20 2 2) [])) = some (.idle, [0x00000000]) ∧
      answerAfter (step (latchPacket
        ⟨0x00000007, 0x00000020, 0x00000100, 0x00000010, 0, 0, 0, 0, 0⟩ false State.reset)) =
        some (.idle, [0x00000001]) := by decide

/-- R63 and log entry 10: a byte of a waiting packet's output range is plain memory while another
command runs, a byte of the running one's is not; with an idle engine the waiting one's is not. -/
theorem test_early_reads :
    let waiting := [⟨encode (.yToHw 0x20 0x200 8), false⟩]
    let busy := { ready (.yToHw 0x10 0x100 8) [] with cmdChan := waiting }
    let idle := { State.reset with cmdChan := waiting }
    readIsUnspecified busy 0x200 = false ∧ readIsUnspecified busy 0x100 = true ∧
      readIsUnspecified idle 0x200 = true ∧ readIsUnspecified idle 0x100 = false := by decide

/-- Table Y4, `MEM_SIZE` = 0x1000. -/
theorem test_outcomes_Y4 :
    [(Instr.yToHw 0x10 0x100 8), .yToHw 0x10 0x100 6, .yToHw 0x10 0x100 0, .yToHw 0x10 0x14 8,
      .yToHw 0x10 0x18 8, .yToHw 0xFFC 0x100 8, .yToHw 0x10 0xFE0 8, .yToHw 0x10 0xFE4 8,
      .yToHw 0x10 0xFFFFFFF0 8].map (preconditions · 0x1000) =
      [true, false, false, false, true, false, true, false, false] := by decide

/-- Tables N3 and I2, `MEM_SIZE` = 0x10000. -/
theorem test_outcomes_N3_I2 :
    [Instr.nv12ToChw 0 0x1000 4 2, .nv12ToChw 0 0x1000 12 2, .nv12ToChw 0 0x1000 6 2,
      .nv12ToChw 0 0x1000 4 3, .nv12ToChw 0 0x1000 0 2, .nv12ToChw 0 8 4 2, .i420ToChw 0 0x1000 8 2,
      .i420ToChw 0 0x1000 4 2, .i420ToChw 0 0x1000 8 1, .i420ToChw 0 0x1000 16 2].map
        (preconditions · 0x10000) =
      [true, true, false, false, false, false, true, false, false, true] := by decide

/-- Tables T4 and B12, `MEM_SIZE` = 0x10000. -/
theorem test_outcomes_T4_B12 :
    [Instr.tileToChw 0 0x400 4 2 8 2 16 4, .tileToChw 0 0x400 2 2 8 2 16 4,
      .tileToChw 0 0x400 4 2 4 2 16 4, .tileToChw 0 0x400 12 2 8 2 16 4,
      .tileToChw 0 0x400 8 3 8 2 16 4, .tileToChw 0 0x400 8 0 8 3 16 4,
      .tileToChw 0 0x400 0 0 8 2 15 4, .tileToChw 0 0x400 0 0 8 2 10 4,
      .tileToChw 0 0x40 4 2 8 2 16 4, .bilinearUpscale 0 0x100 17 1, .bilinearUpscale 0 0x100 0 4,
      .bilinearUpscale 0 8 4 4, .bilinearUpscale 0 16 4 4].map (preconditions · 0x10000) =
      [true, false, false, false, false, false, false, true, false, true, false, false, true] := by
  decide

/-! ### Witnesses: states and operands that meet the hypotheses of the obligations -/

/-- The packet of P1: `Y_TO_HW 0x10, 0x100, 8`. -/
def packetP1 : Packet := ⟨0x00000001, 0x00000010, 0x00000100, 0x00000008, 0, 0, 0, 0, 0⟩

/-- The illegal packet of P5. -/
def packetIllegal : Packet := ⟨0x00000007, 0x00000020, 0x00000100, 0x00000010, 0, 0, 0, 0, 0⟩

/-- A small region of 0x200 bytes with one byte listed. -/
def base : State := { State.reset with mem := [(0x10, 0x33)], memSize := 0x200 }

/-- `base` with the packet of P1 running and these host actions to come. -/
def running (host : List HostAction) : State := { latchPacket packetP1 false base with host := host }

/-- `base` with an illegal packet in the latches. -/
def runningIllegal : State := latchPacket packetIllegal false base

theorem witness_DecodeEncodeEveryCommand :
    (Instr.yToHw 0 4294967295 0).wf = true ∧ (Instr.nv12ToChw 4294967295 0 1 0).wf = true ∧
      (Instr.i420ToChw 0 1 2 4294967295).wf = true ∧
      (Instr.tileToChw 0 1 2 3 4 5 6 4294967295).wf = true ∧
      (Instr.bilinearUpscale 1 2 4294967295 4).wf = true := by decide

theorem witness_LegalPacketIsEncodingOfItsCommand :
    decode packetP1 = .legal (.yToHw 0x10 0x100 8) ∧
      (⟨0, 0, 0, 0, 0, 0, 0, 0, 0⟩ : Packet).opcode = 0 ∧
      6 ≤ (⟨0x00000006, 0, 0, 0, 0, 0, 0, 0, 0⟩ : Packet).opcode.toNat ∧
      6 ≤ (⟨0x000000FF, 0, 0, 0, 0, 0, 0, 0, 0⟩ : Packet).opcode.toNat := by decide

theorem witness_PacketLegalExactlyWhen :
    runningIllegal.status = .busy ∧ engineIsNext runningIllegal = true ∧
      decode (latchedPacket runningIllegal) = .illegal .opcodeReserved := by decide

theorem witness_HeaderSelectsCommand :
    decode packetP1 = .legal (.yToHw 0x10 0x100 8) ∧
      decode ⟨0x00000002, 0, 0x100, 4, 2, 0, 0, 0, 0⟩ = .legal (.nv12ToChw 0 0x100 4 2) ∧
      decode ⟨0x00000003, 0, 0x100, 8, 2, 0, 0, 0, 0⟩ = .legal (.i420ToChw 0 0x100 8 2) ∧
      decode ⟨0x00000004, 0, 0x100, 0, 0, 8, 2, 8, 2⟩ = .legal (.tileToChw 0 0x100 0 0 8 2 8 2) ∧
      decode ⟨0x00000005, 0, 0x100, 1, 1, 0, 0, 0, 0⟩ = .legal (.bilinearUpscale 0 0x100 1 1) := by
  decide

theorem witness_PacketIsIts288Bits : (Instr.tileToChw 0 0 0 0 0 0 0 4294967295).wf = true := by
  decide

theorem witness_IdleEngineAcceptsOldestPacket :
    let s := { base with cmdChan := [⟨packetP1, false⟩, ⟨packetIllegal, true⟩] }
    s.status = .idle ∧ s.cmdChan = ⟨packetP1, false⟩ :: [⟨packetIllegal, true⟩] ∧
      engineIsNext s = true := by decide

/-- Presenting to an idle and to a busy engine, accepting, and a turn with nothing to do. -/
theorem witness_PacketsNeverDroppedOrReordered :
    step { base with host := [.present packetP1] } =
        .next { base with cmdChan := [⟨packetP1, false⟩] } ∧
      step (running [.present packetIllegal]) =
        .next { running [] with cmdChan := [⟨packetIllegal, false⟩] } ∧
      step { base with cmdChan := [⟨packetP1, false⟩] } = .next (running []) ∧
      step { base with host := [.engineTurn] } = .next base ∧
      (∀ p rest, ({ base with host := [.engineTurn] } : State).host ≠ .present p :: rest) ∧
      (∀ rest, ({ base with host := [.engineTurn] } : State).host ≠ .assertReset :: rest) :=
  ⟨rfl, rfl, rfl, rfl, fun _ _ h => by simp at h, fun _ h => by simp at h⟩

/-- A response taken, a wait for one, and a delivery. -/
theorem witness_ResponsesNeverLostOrReordered :
    let s := { base with host := [.takeResponse], rspChan := [0, 1] }
    s.host = .takeResponse :: [] ∧ s.rspChan = 0 :: [1] ∧
      step { base with host := [.takeResponse] } = .next { base with host := [.takeResponse] } ∧
      base.rspChan = [] ∧ step runningIllegal = .next (raiseIllegalCommand runningIllegal) ∧
      (∀ rest, runningIllegal.host = .takeResponse :: rest → runningIllegal.rspChan = []) ∧
      (∀ rest, runningIllegal.host ≠ .assertReset :: rest) :=
  ⟨rfl, rfl, rfl, rfl, rfl, fun _ _ => rfl, fun _ h => by cases h⟩

theorem witness_StatusChangesOnlyByAcceptanceAndResponse :
    step { base with cmdChan := [⟨packetP1, false⟩] } = .next (running []) ∧
      base.status = .idle ∧ (running []).status = .busy ∧
      step runningIllegal = .next (raiseIllegalCommand runningIllegal) ∧
      runningIllegal.status = .busy ∧ (raiseIllegalCommand runningIllegal).status = .idle ∧
      step (running [.assertReset]) = .next (hostReset (running [])) ∧
      (hostReset (running [])).status = .idle := ⟨rfl, rfl, rfl, rfl, rfl, rfl, rfl, rfl⟩

theorem witness_StepRunsLatchedCommand :
    (running []).status = .busy ∧
      decode (latchedPacket (running [])) = .legal (.yToHw 0x10 0x100 8) ∧
      engineIsNext (running []) = true ∧ base.status = .idle ∧ base.cmdChan = [] ∧
      engineIsNext base = true := by decide

theorem witness_FetchedWordRunsNext : decode packetP1 = .legal (.yToHw 0x10 0x100 8) := by decide

theorem witness_IllegalPacketAnsweredOne :
    runningIllegal.status = .busy ∧
      decode (latchedPacket runningIllegal) = .illegal .opcodeReserved ∧
      engineIsNext runningIllegal = true ∧
      exec (.yToHw 0x10 0x100 6) base =
        .next (deliverResponse responseLegal (scrambleRegion base)) :=
  ⟨by decide, by decide, by decide, rfl⟩

/-- The engine is next with nothing left for the host, on its token, and while the host waits. -/
theorem witness_EngineTurnNeverStops :
    engineIsNext base = true ∧ engineIsNext (running [.engineTurn, .read 0]) = true ∧
      engineIsNext (running [.takeResponse]) = true ∧
      engineIsNext (running [.read 0]) = false := by decide

theorem witness_PresentedPacketIsAnswered :
    let s := { base with host := [.present packetP1] }
    let t := { base with host := [.present packetIllegal] }
    s.status = .idle ∧ s.cmdChan = [] ∧ s.host = [.present packetP1] ∧
      decode packetP1 = .legal (.yToHw 0x10 0x100 8) ∧ t.status = .idle ∧ t.cmdChan = [] ∧
      t.host = [.present packetIllegal] ∧ decode packetIllegal = .illegal .opcodeReserved := by
  decide

/-- The pattern next to the result for 1, the smallest pattern, and the largest finite one. -/
theorem witness_NormIsNearestBinary32 :
    ((0x3B808082 : Word).extractLsb' 31 1 = 0 ∧ binary32Exponent 0x3B808082 < 255 ∧
      (0x3B808082 : Word) ≠ normByte 1) ∧
    ((0x00000001 : Word).extractLsb' 31 1 = 0 ∧ binary32Exponent 0x00000001 < 255 ∧
      (0x00000001 : Word) ≠ normByte 0) ∧
    ((0x7F7FFFFF : Word).extractLsb' 31 1 = 0 ∧ binary32Exponent 0x7F7FFFFF < 255 ∧
      (0x7F7FFFFF : Word) ≠ normByte 255) := by decide

theorem witness_NormAgreesWithIntegerFormula : 1 ≤ 1 ∧ 1 ≤ 254 ∧ 254 ≤ 254 := by decide

theorem witness_NormIsNotReciprocalProduct :
    (0x3B808082 : Word).extractLsb' 31 1 = 0 ∧ binary32Exponent 0x3B808082 < 255 ∧
      (0x3B808082 : Word) ≠ reciprocal255 := by decide

theorem witness_NormIsIncreasingInUnitInterval :
    (0 : Byte).toNat < (1 : Byte).toNat ∧ (254 : Byte).toNat < (255 : Byte).toNat ∧
      (1 : Byte) ≠ 0 := by decide

theorem witness_LaneOperations : 0 < [(0x33 : Byte)].length := by decide

/-- Output right behind the source, region used to its last byte. -/
theorem witness_YToHwResult :
    base.mem.wf = true ∧ base.disturbed = false ∧ 4 % 4 = 0 ∧ 1 ≤ 4 ∧ 0x1EC + 4 ≤ base.memSize ∧
      0x1F0 + 4 * 4 ≤ base.memSize ∧ (0x1EC + 4 ≤ 0x1F0 ∨ 0x1F0 + 4 * 4 ≤ 0x1EC) := by decide

theorem witness_Nv12ToChwResult :
    base.mem.wf = true ∧ base.disturbed = false ∧ 4 % 4 = 0 ∧ 2 % 2 = 0 ∧ 1 ≤ 4 ∧ 1 ≤ 2 ∧
      0 + 4 * 2 + 4 * 2 / 2 ≤ base.memSize ∧ 12 + 12 * (4 * 2) ≤ base.memSize ∧
      (0 + 4 * 2 + 4 * 2 / 2 ≤ 12 ∨ 12 + 12 * (4 * 2) ≤ 0) := by decide

theorem witness_I420ToChwResult :
    base.mem.wf = true ∧ base.disturbed = false ∧ 8 % 8 = 0 ∧ 2 % 2 = 0 ∧ 1 ≤ 8 ∧ 1 ≤ 2 ∧
      0xC0 + 8 * 2 + 8 * 2 / 2 ≤ base.memSize ∧ 0 + 12 * (8 * 2) ≤ base.memSize ∧
      (0xC0 + 8 * 2 + 8 * 2 / 2 ≤ 0 ∨ 0 + 12 * (8 * 2) ≤ 0xC0) := by decide

/-- An odd `y`, and the tile in the last column of the frame. -/
theorem witness_TileToChwResult :
    base.mem.wf = true ∧ base.disturbed = false ∧ 4 % 4 = 0 ∧ 8 % 8 = 0 ∧ 2 % 2 = 0 ∧ 12 % 2 = 0 ∧
      4 % 2 = 0 ∧ 4 + 8 ≤ 12 ∧ 1 + 2 ≤ 4 ∧ 1 ≤ 8 ∧ 1 ≤ 2 ∧ 1 ≤ 12 ∧ 1 ≤ 4 ∧
      0 + 12 * 4 + 12 * 4 / 2 ≤ base.memSize ∧ 0x48 + 12 * (8 * 2) ≤ base.memSize ∧
      (0 + 12 * 4 + 12 * 4 / 2 ≤ 0x48 ∨ 0x48 + 12 * (8 * 2) ≤ 0) := by decide

/-- The smallest channel, where every neighbour is clamped. -/
theorem witness_BilinearUpscaleResult :
    base.mem.wf = true ∧ base.disturbed = false ∧ 1 ≤ 1 ∧ 1 ≤ 1 ∧ 0x10 + 1 * 1 ≤ base.memSize ∧
      0x11 + 4 * (1 * 1) ≤ base.memSize ∧ (0x10 + 1 * 1 ≤ 0x11 ∨ 0x11 + 4 * (1 * 1) ≤ 0x10) := by
  decide

/-- One `OK` call of each command, with a second region that has the same source bytes. -/
theorem witness_CommandsWriteExactlyTheirOutput :
    base.mem.wf = true ∧ callOk (.yToHw 0x10 0x100 8) base = true ∧
      callOk (.nv12ToChw 0 0x100 4 2) base = true ∧ callOk (.i420ToChw 0x10 0x100 8 2) base = true ∧
      callOk (.tileToChw 0 0x100 0 1 8 2 8 4) base = true ∧
      callOk (.bilinearUpscale 0 0x100 2 2) base = true ∧
      Memory.wf [(0x10, 0x33), (0x1FF, 0x01)] = true ∧
      SameInside (srcSpan (.yToHw 0x10 0x100 8)).lo (srcSpan (.yToHw 0x10 0x100 8)).hi base.mem
        [(0x10, 0x33), (0x1FF, 0x01)] := by
  refine ⟨by decide, by decide, by decide, by decide, by decide, by decide, by decide,
    fun a _ h => ?_⟩
  have ha : a < 24 := h
  simp only [base, Memory.read]
  split
  · rfl
  · rw [if_neg (by omega)]

theorem witness_ResultDependsOnPacketAndMemory :
    callOk (.yToHw 0x10 0x100 8) base = true ∧ callOk (.yToHw 0x10 0x100 8) (running []) = true ∧
      base.mem = (running []).mem := by decide

theorem witness_OutcomeOkExactlyWhen : base.disturbed = false := by decide

/-- A call that is not `OK` for its shape, its count, its range, its overlap, or a disturbance. -/
theorem witness_UnspecCallLeavesRegionFree :
    callOk (.yToHw 0x10 0x100 6) base = false ∧ callOk (.yToHw 0x10 0x100 0) base = false ∧
      callOk (.yToHw 0x10 0x1E4 8) base = false ∧ callOk (.yToHw 0x10 0x14 8) base = false ∧
      callOk (.yToHw 0x10 0x100 8) (latchPacket packetP1 true base) = false := by decide

theorem witness_Nv12ChromaConstantOnBlocks :
    base.mem.wf = true ∧ callOk (.nv12ToChw 0 0x100 4 2) base = true ∧ 0 < 2 ∧ 1 < 2 ∧ 0 < 4 ∧
      3 < 4 := by decide

/-- P3: the same picture in both layouts, in one region. -/
def frameP3 : Memory :=
  putBytes [0x00, 0x10, 0x20, 0x30, 0x40, 0x50, 0x60, 0x70, 0x80, 0x90, 0xA0, 0xB0, 0xC0, 0xD0, 0xE0,
    0xF0, 0x01, 0xFF, 0x02, 0xFE, 0x03, 0xFD, 0x04, 0xFC] 0
    (putBytes [0x00, 0x10, 0x20, 0x30, 0x40, 0x50, 0x60, 0x70, 0x80, 0x90, 0xA0, 0xB0, 0xC0, 0xD0, 0xE0,
      0xF0, 0x01, 0x02, 0x03, 0x04, 0xFF, 0xFE, 0xFD, 0xFC] 0x40 [])

theorem witness_Nv12AndI420Agree :
    let s := { State.reset with mem := frameP3 }
    s.mem.wf = true ∧ callOk (.nv12ToChw 0 0x400 8 2) s = true ∧
      callOk (.i420ToChw 0x40 0x800 8 2) s = true ∧
      (∀ k, k < 8 * 2 → s.mem.read (0 + k) = s.mem.read (0x40 + k)) ∧
      (∀ r, r < 2 / 2 → ∀ c, c < 8 / 2 →
        s.mem.read (0 + 8 * 2 + r * 8 + 2 * c) = s.mem.read (0x40 + 8 * 2 + r * (8 / 2) + c) ∧
        s.mem.read (0 + 8 * 2 + r * 8 + 2 * c + 1) =
          s.mem.read (0x40 + 8 * 2 + 8 * 2 / 4 + r * (8 / 2) + c)) := by decide +kernel

theorem witness_FullFrameTileIsI420 :
    base.mem.wf = true ∧ callOk (.i420ToChw 0 0x100 8 2) base = true := by decide

theorem witness_EvenTileIsCropOfFullFrame :
    let s := { base with memSize := 0x1000 }
    s.mem.wf = true ∧ 2 % 2 = 0 ∧ 16 % 8 = 0 ∧ callOk (.tileToChw 0 0x400 4 2 8 2 16 4) s = true ∧
      callOk (.i420ToChw 0 0x800 16 4) s = true := by decide

theorem witness_ChwFirstPlaneIsYToHw :
    base.mem.wf = true ∧ callOk (.nv12ToChw 0 0x100 4 2) base = true ∧
      callOk (.i420ToChw 0 0x100 8 2) base = true := by decide

theorem witness_YToHwSplitsIntoBatches :
    base.mem.wf = true ∧ callOk (.yToHw 0x10 0x100 (4 + 4)) base = true ∧ 4 % 4 = 0 ∧ 1 ≤ 4 := by
  decide

theorem witness_Nv12ReferenceSequenceAgrees :
    base.mem.wf = true ∧ 4 % 4 = 0 ∧
      (0x100 + 4 * (2 * 1 * 4) ≤ 0x120 ∨ 0x120 + 4 * (2 * 1 * 4) ≤ 0x100) := by decide

theorem witness_I420ReferenceSequenceAgrees : base.mem.wf = true ∧ 4 % 4 = 0 := by decide

theorem witness_TileReferenceTraversalAgrees :
    base.mem.wf = true ∧ 4 % 4 = 0 ∧ 8 % 8 = 0 ∧ 2 % 2 = 0 ∧ 12 % 2 = 0 ∧ 4 + 8 ≤ 12 := by decide

theorem witness_UpscaleRepeatsLastColumnAndRow :
    base.mem.wf = true ∧ callOk (.bilinearUpscale 0 0x100 3 2) base = true ∧ 1 < 2 ∧
      3 < 2 * 2 ∧ 5 < 2 * 3 := by decide

theorem witness_UpscaleOfUniformChannel :
    let s := { base with mem := [] }
    let t := { base with mem := [(1, 0xFF), (3, 0xFF)] }
    s.mem.wf = true ∧ callOk (.bilinearUpscale 0 0x100 3 3) s = true ∧
      (∀ k, k < 3 * 3 → s.mem.read (0 + k) = 0) ∧ t.mem.wf = true ∧
      callOk (.bilinearUpscale 0 0x100 2 2) t = true ∧ t.mem.read 0 = 0 ∧ t.mem.read (0 + 1) = 255 ∧
      t.mem.read (0 + 2) = 0 ∧ t.mem.read (0 + 3) = 255 := by decide

theorem witness_UpscaledChannelIsNormalizedNext :
    base.mem.wf = true ∧ callOk (.bilinearUpscale 0x10 0x20 2 2) base = true ∧
      0x100 + 16 * (2 * 2) ≤ base.memSize ∧
      (0x20 + 4 * (2 * 2) ≤ 0x100 ∨ 0x100 + 16 * (2 * 2) ≤ 0x20) := by decide

theorem witness_StepKeepsInvariant :
    stateInv (running [.write 0x10 0x00]) = true ∧
      step { base with cmdChan := [⟨packetP1, true⟩] } =
        .next (latchPacket packetP1 true base) ∧
      stateInv { base with cmdChan := [⟨packetP1, true⟩] } = true := ⟨by decide, rfl, by decide⟩

theorem witness_MultiByteValuesAreLittleEndian : base.mem.wf = true ∧ 3 < 4 := by decide

theorem witness_RegionChangesOnlyByCallsAndHost :
    step { base with host := [.write 0x11 0x01] } =
        .next { base with mem := [(0x10, 0x33), (0x11, 0x01)] } ∧
      ([(0x10, 0x33), (0x11, 0x01)] : Memory) ≠ base.mem := ⟨rfl, by decide⟩

theorem witness_ResetEmptiesChannelsKeepsRegion :
    let s := { base with host := [.assertReset], cmdChan := [⟨packetP1, false⟩], rspChan := [0] }
    s.host = .assertReset :: [] ∧ runningCommand s = none ∧
      runningCommand { runningIllegal with host := [.assertReset] } = none := by decide

theorem witness_ResetDuringCallSparesOtherBytes :
    let s := running [.assertReset]
    s.mem.wf = true ∧ s.host = .assertReset :: [] ∧ s.status = .busy ∧
      decode (latchedPacket s) = .legal (.yToHw 0x10 0x100 8) ∧
      callOk (.yToHw 0x10 0x100 8) s = true := by decide

theorem witness_HostReadsLastValueWritten :
    let s := { base with host := [.write 0x1FF 0x12, .read 0x1FF] }
    s.mem.wf = true ∧ 0x1FF < s.memSize ∧ s.status = .idle ∧ s.cmdChan = [] ∧
      s.host = .write 0x1FF 0x12 :: .read 0x1FF :: [] := by decide

/-- The first byte of the output range, and the last byte before it. -/
theorem witness_HostReadDuringCall :
    let s := running [.read 0x100]
    let t := running [.read 0xFF]
    let i := Instr.yToHw 0x10 0x100 8
    0x100 < s.memSize ∧ s.status = .busy ∧ decode (latchedPacket s) = .legal i ∧
      s.host = .read 0x100 :: [] ∧ spanHas (outSpan i) 0x100 = true ∧ 0xFF < t.memSize ∧
      t.status = .busy ∧ decode (latchedPacket t) = .legal i ∧ t.host = .read 0xFF :: [] ∧
      spanHas (outSpan i) 0xFF = false ∧ callOk i t = true := by decide

/-- A byte of the source range, and the byte right behind it. -/
theorem witness_HostWriteDuringCall :
    let s := running [.write 0x17 0x01, .engineTurn]
    let t := running [.write 0x18 0x01, .engineTurn]
    let i := Instr.yToHw 0x10 0x100 8
    s.mem.wf = true ∧ 0x17 < s.memSize ∧ s.status = .busy ∧ decode (latchedPacket s) = .legal i ∧
      s.host = .write 0x17 0x01 :: .engineTurn :: [] ∧ packetUses (latchedPacket s) 0x17 = true ∧
      0x18 < t.memSize ∧ t.status = .busy ∧ decode (latchedPacket t) = .legal i ∧
      t.host = .write 0x18 0x01 :: .engineTurn :: [] ∧
      packetUses (latchedPacket t) 0x18 = false := by decide

/-- A busy engine, a packet that waits second, and the last byte of its source range; an acceptance; a
disturbed call that goes on. -/
theorem witness_HostWriteAfterPresentation :
    let waiting := [⟨packetIllegal, false⟩, ⟨packetP1, false⟩]
    let s := { running [.write 0x17 0x01] with cmdChan := waiting }
    0x17 < s.memSize ∧ s.host = .write 0x17 0x01 :: [] ∧
      s.cmdChan[1]? = some ⟨packetP1, false⟩ ∧ packetUses packetP1 0x17 = true ∧
      step { base with cmdChan := [⟨packetP1, true⟩] } = .next (latchPacket packetP1 true base) ∧
      (∀ a b rest, base.host ≠ .write a b :: rest) ∧ (∀ rest, base.host ≠ .assertReset :: rest) ∧
      step { latchPacket packetP1 true base with host := [.present packetP1] } =
        .next { latchPacket packetP1 true base with cmdChan := [⟨packetP1, false⟩] } ∧
      (latchPacket packetP1 true base).status = .busy ∧
      (latchPacket packetP1 true base).disturbed = true := by
  refine ⟨by decide, rfl, rfl, by decide, rfl, fun _ _ _ h => ?_, fun _ h => ?_, rfl, rfl, rfl⟩ <;>
    cases h

theorem witness_HostAccessOutsideRegionFaults :
    base.memSize ≤ 0x200 ∧ ({ base with host := [.read 0x200] } : State).host = .read 0x200 :: [] ∧
      ({ base with host := [.write 0x200 1] } : State).host = .write 0x200 1 :: [] := by decide

theorem witness_GrowingKeepsExistingBytes :
    let s := { base with host := [.grow 16] }
    s.mem.wf = true ∧ s.host = .grow 16 :: [] ∧ s.status = .idle ∧ s.cmdChan = [] ∧
      s.memSize + 16 ≤ Config.addressSpace ∧ (running [.grow 16]).status = .busy ∧
      (running [.grow 16]).host = .grow 16 :: [] := by decide

end Sys2Proof.Tests
end

section
/-!
PROOFS. The scope (00_scope.md): the outcome `UNSPEC` of a legal command (R14).
-/

namespace Sys2Proof.Machine

/-- Scrambling leaves no byte of the region as it was: each is the free byte of the draw it uses up. -/
theorem read_scrambleRegion {s : State} {a : Nat} (ha : a < s.memSize) :
    (scrambleRegion s).mem.read a = Config.freeByte s.free a := by
  have hin : 0 ≤ a ∧ a < 0 + s.memSize := by omega
  rw [scrambleRegion_mem, read_freeFill rfl, if_pos hin]

/-- Scrambling touches only the region and the draw counter, so the response answers the call that ran
before it. -/
theorem answered_deliverResponse_scrambleRegion (rsp : Word) (s : State) :
    Answered s (deliverResponse rsp (scrambleRegion s)) rsp :=
  answered_deliverResponse rsp (scrambleRegion s)

/-- Settles O31: a call that is not `OK` scrambles the region and is answered 0; the scrambling and the
release of the latches each use up a draw. -/
theorem unspecCallLeavesRegionFree : Obligations.UnspecCallLeavesRegionFree := by
  intro i s hbad
  have hfree : s.free < (deliverResponse responseLegal (scrambleRegion s)).free := by
    rw [deliverResponse_free, scrambleRegion_free]
    omega
  exact ⟨_, exec_of_not_callOk hbad, answered_deliverResponse_scrambleRegion responseLegal s, hfree,
    fun _ ha => read_scrambleRegion ha⟩

end Sys2Proof.Machine
end

section
/-!
PROOFS. The state (10_state.md): what every step keeps, what changes the status and the region, what a
call leaves in the latches, and what its result depends on (R21 to R24, R33).
-/

namespace Sys2Proof.Machine

/-! ### A region in canonical form inside `MEM_SIZE` (R21) -/

/-- The part of the invariant that speaks of the region: canonical, and no byte listed at or past
`size`. -/
def RegionInv (size : Nat) (m : Memory) : Prop := m.wf = true ∧ m.within size = true

theorem regionInv_nil (size : Nat) : RegionInv size [] := ⟨rfl, rfl⟩

theorem regionInv_mono {size size' : Nat} (h : size ≤ size') {m : Memory} (hm : RegionInv size m) :
    RegionInv size' m :=
  ⟨hm.1, within_mono h hm.2⟩

theorem regionInv_write {size a : Nat} {m : Memory} (ha : a < size) (hm : RegionInv size m)
    (v : Byte) : RegionInv size (m.write a v) :=
  ⟨wf_write hm.1 a v, within_write ha hm.2⟩

theorem regionInv_writeFloat {size a : Nat} {m : Memory} (ha : a + 4 ≤ size)
    (hm : RegionInv size m) (p : Word) : RegionInv size (writeFloat m a p) :=
  forUpTo_keeps hm fun _ _ _ hm' => regionInv_write (by omega) hm' _

theorem regionInv_freeFill {size lo n : Nat} {m : Memory} (hn : lo + n ≤ size)
    (hm : RegionInv size m) (k : Nat) : RegionInv size (freeFill k lo n m) :=
  ⟨wf_freeFill hm.1 k lo n, within_freeFill hm.2 hn k⟩

/-! ### The kernels stay inside a region that holds their output -/

theorem regionInv_convertSamples {size dst count : Nat} {m : Memory} (hd : dst + 4 * count ≤ size)
    (hm : RegionInv size m) (frame : Memory) (src : Nat) :
    RegionInv size (convertSamples frame src dst count m) :=
  forUpTo_keeps hm fun _ _ _ hm' => regionInv_writeFloat (by omega) hm' _

/-- The position at row `j`, column `i` of an array of `rows` rows and `cols` columns. -/
theorem index_lt_area {rows cols j i : Nat} (hj : j < rows) (hi : i < cols) :
    j * cols + i < rows * cols := by
  have hrow : (j + 1) * cols ≤ rows * cols := Nat.mul_le_mul_right cols hj
  rw [Nat.succ_mul] at hrow
  omega

/-- The position of one of the 2×2 outputs of the sample in row `r`, column `c`. -/
theorem block_index_lt_area {rows cols r c dy dx : Nat} (hr : r < rows) (hc : c < cols)
    (hdy : dy < 2) (hdx : dx < 2) :
    (2 * r + dy) * (2 * cols) + (2 * c + dx) < 2 * rows * (2 * cols) :=
  index_lt_area (by omega) (by omega)

theorem regionInv_i420Upsample {size rows cols dst : Nat} {m : Memory}
    (hd : dst + 4 * (2 * rows * (2 * cols)) ≤ size) (hm : RegionInv size m)
    (frame : Memory) (src stride : Nat) :
    RegionInv size (i420Upsample frame src stride rows cols dst m) :=
  forUpTo_keeps hm fun _ hr _ hm => forUpTo_keeps hm fun _ hc _ hm =>
    forUpTo_keeps hm fun _ hdy _ hm => forUpTo_keeps hm fun _ hdx _ hm => by
      have := block_index_lt_area hr hc hdy hdx
      exact regionInv_writeFloat (by omega) hm _

theorem regionInv_nv12Upsample {size rows cols uDst vDst : Nat} {m : Memory}
    (hu : uDst + 4 * (2 * rows * (2 * cols)) ≤ size)
    (hv : vDst + 4 * (2 * rows * (2 * cols)) ≤ size) (hm : RegionInv size m)
    (frame : Memory) (src : Nat) :
    RegionInv size (nv12Upsample frame src uDst vDst (2 * cols) cols rows m) :=
  forUpTo_keeps hm fun _ hr _ hm => forUpTo_keeps hm fun _ hc _ hm =>
    forUpTo_keeps hm fun _ hdy _ hm => forUpTo_keeps hm fun _ hdx _ hm => by
      have := block_index_lt_area hr hc hdy hdx
      exact regionInv_writeFloat (by omega) (regionInv_writeFloat (by omega) hm _) _

theorem regionInv_tileLuma {size dst width height : Nat} {m : Memory}
    (hd : dst + 4 * (height * width) ≤ size) (hm : RegionInv size m)
    (frame : Memory) (src x y frameWidth : Nat) :
    RegionInv size (tileLuma frame src dst x y width height frameWidth m) :=
  forUpTo_keeps hm fun _ hj _ hm => forUpTo_keeps hm fun _ hi _ hm => by
    have := index_lt_area hj hi
    exact regionInv_writeFloat (by omega) hm _

theorem upscaledAddress_lt {dst w h y x dy dx : Nat} (hy : y < h) (hx : x < w) (hdy : dy < 2)
    (hdx : dx < 2) : upscaledAddress dst w (2 * y + dy) (2 * x + dx) < dst + 2 * h * (2 * w) := by
  have := block_index_lt_area hy hx hdy hdx
  unfold upscaledAddress
  omega

theorem regionInv_upscaleChannel {size dst w h : Nat} {m : Memory}
    (hd : dst + 2 * h * (2 * w) ≤ size) (hm : RegionInv size m) (channel : Memory) (src : Nat) :
    RegionInv size (upscaleChannel channel src dst w h m) :=
  forUpTo_keeps hm fun y hy _ hm => forUpTo_keeps hm fun x hx _ hm => by
    have hin : ∀ dy < 2, ∀ dx < 2, upscaledAddress dst w (2 * y + dy) (2 * x + dx) < size :=
      fun dy hdy dx hdx => (upscaledAddress_lt hy hx hdy hdx).trans_le hd
    have htl := regionInv_write (hin 0 (by omega) 0 (by omega)) hm
    have htr := fun v => regionInv_write (hin 0 (by omega) 1 (by omega)) (htl v)
    have hbl := fun v v' => regionInv_write (hin 1 (by omega) 0 (by omega)) (htr v v')
    exact regionInv_write (hin 1 (by omega) 1 (by omega)) (hbl _ _ _) _

/-! ### An `OK` call stays inside the region (R49) -/

theorem outSpan_lo_le_hi (i : Instr) : (outSpan i).lo ≤ (outSpan i).hi := by
  cases i <;> exact Nat.le_add_right _ _

/-- The preconditions put the output range inside the region (R49). -/
theorem outSpan_hi_le_of_preconditions {i : Instr} {size : Nat}
    (h : preconditions i size = true) : (outSpan i).hi ≤ size := by
  simp only [preconditions, pRange, Bool.and_eq_true, decide_eq_true_eq] at h
  obtain ⟨⟨-, -, hout⟩, -⟩ := h
  exact hout

theorem pShape_of_preconditions {i : Instr} {size : Nat} (h : preconditions i size = true) :
    pShape i = true := by
  simp only [preconditions, Bool.and_eq_true] at h
  obtain ⟨⟨⟨hshape, -⟩, -⟩, -⟩ := h
  exact hshape

/-- A plane of even width and height is the upsampling of a plane of half its width and height. -/
theorem area_of_even {w h : Nat} (hw : w % 2 = 0) (hh : h % 2 = 0) :
    2 * (h / 2) * (2 * (w / 2)) = w * h := by
  rw [Nat.mul_div_cancel' (Nat.dvd_of_mod_eq_zero hw),
    Nat.mul_div_cancel' (Nat.dvd_of_mod_eq_zero hh), Nat.mul_comm]

/-- An upsampled chroma plane of even width and height stays where the plane lies. -/
theorem regionInv_chromaPlane {size dst w h : Nat} {m : Memory} (hw : w % 2 = 0) (hh : h % 2 = 0)
    (hd : dst + 4 * (w * h) ≤ size) (hm : RegionInv size m) (frame : Memory) (src stride : Nat) :
    RegionInv size (i420Upsample frame src stride (h / 2) (w / 2) dst m) :=
  regionInv_i420Upsample (by rwa [area_of_even hw hh]) hm frame src stride

theorem regionInv_i420Frame {size dst w h : Nat} {m : Memory} (hw : w % 2 = 0) (hh : h % 2 = 0)
    (hd : dst + 12 * (w * h) ≤ size) (hm : RegionInv size m) (frame : Memory) (src : Nat) :
    RegionInv size (i420Frame frame src dst w h m) :=
  regionInv_chromaPlane hw hh (by omega)
    (regionInv_chromaPlane hw hh (by omega)
      (regionInv_convertSamples (by omega) hm frame src) frame _ _) frame _ _

theorem regionInv_nv12Frame {size dst w h : Nat} {m : Memory} (hw : w % 2 = 0) (hh : h % 2 = 0)
    (hd : dst + 12 * (w * h) ≤ size) (hm : RegionInv size m) (frame : Memory) (src : Nat) :
    RegionInv size (nv12Frame frame src dst w h m) := by
  have harea := area_of_even hw hh
  have hUV := regionInv_nv12Upsample (uDst := dst + 4 * (w * h)) (vDst := dst + 8 * (w * h))
    (rows := h / 2) (cols := w / 2) (by omega) (by omega)
    (regionInv_convertSamples (dst := dst) (count := w * h) (by omega) hm frame src)
    frame (src + w * h)
  rwa [Nat.mul_div_cancel' (Nat.dvd_of_mod_eq_zero hw)] at hUV

theorem regionInv_tileFrame {size dst w h : Nat} {m : Memory} (hw : w % 2 = 0) (hh : h % 2 = 0)
    (hd : dst + 12 * (w * h) ≤ size) (hm : RegionInv size m) (frame : Memory)
    (src x y fw fh : Nat) : RegionInv size (tileFrame frame src dst x y w h fw fh m) :=
  have harea : h * w = w * h := Nat.mul_comm h w
  regionInv_chromaPlane hw hh (by omega)
    (regionInv_chromaPlane hw hh (by omega)
      (regionInv_tileLuma (by omega) hm frame src x y fw) frame _ _) frame _ _

/-- Every command whose preconditions hold keeps the region canonical and inside its size. -/
theorem regionInv_commandResult {i : Instr} {size : Nat} {m : Memory}
    (hp : preconditions i size = true) (hm : RegionInv size m) :
    RegionInv size (commandResult i m) := by
  have hout := outSpan_hi_le_of_preconditions hp
  have hshape := pShape_of_preconditions hp
  cases i with
  | yToHw src dst n => exact regionInv_convertSamples hout hm m src
  | nv12ToChw src dst w h =>
    simp only [pShape, Bool.and_eq_true, decide_eq_true_eq] at hshape
    obtain ⟨hw, hh⟩ := hshape
    exact regionInv_nv12Frame (by omega) hh hout hm m src
  | i420ToChw src dst w h =>
    simp only [pShape, Bool.and_eq_true, decide_eq_true_eq] at hshape
    obtain ⟨hw, hh⟩ := hshape
    exact regionInv_i420Frame (by omega) hh hout hm m src
  | tileToChw src dst x y w h fw fh =>
    simp only [pShape, Bool.and_eq_true, decide_eq_true_eq] at hshape
    obtain ⟨⟨⟨⟨⟨⟨-, hw⟩, hh⟩, -⟩, -⟩, -⟩, -⟩ := hshape
    exact regionInv_tileFrame (by omega) hh hout hm m src x y fw fh
  | bilinearUpscale src dst w h =>
    have harea : 2 * h * (2 * w) = 4 * (w * h) := by ring
    exact regionInv_upscaleChannel (by rwa [harea]) hm m src

/-! ### The invariant (log entry 7) as a proposition -/

theorem stateInv_iff (s : State) : stateInv s = true ↔
    RegionInv s.memSize s.mem ∧ 1 ≤ s.memSize ∧ s.memSize ≤ Config.addressSpace ∧
      (s.disturbed = true → s.status = .busy) := by
  cases hd : s.disturbed <;> simp [stateInv, RegionInv, hd, and_assoc]

/-- A state with a region of the same size meets the invariant as soon as its region does and it is not
disturbed while idle. -/
theorem stateInv_of_sameSize {s t : State} (hs : stateInv s = true) (hsize : t.memSize = s.memSize)
    (hmem : RegionInv s.memSize t.mem) (hdist : t.disturbed = true → t.status = .busy) :
    stateInv t = true := by
  rw [stateInv_iff] at hs ⊢
  rw [hsize]
  obtain ⟨-, hpos, hmax, -⟩ := hs
  exact ⟨hmem, hpos, hmax, hdist⟩

theorem regionInv_of_stateInv {s : State} (hs : stateInv s = true) : RegionInv s.memSize s.mem :=
  ((stateInv_iff s).1 hs).1

theorem busy_of_disturbed {s : State} (hs : stateInv s = true) (hd : s.disturbed = true) :
    s.status = .busy := by
  obtain ⟨-, -, -, hdist⟩ := (stateInv_iff s).1 hs
  exact hdist hd

theorem regionInv_scrambleRegion (s : State) : RegionInv s.memSize (scrambleRegion s).mem :=
  regionInv_freeFill (by omega) (regionInv_nil _) s.free

@[simp] theorem stateInv_engineState (s : State) : stateInv (engineState s) = stateInv s := by
  unfold engineState; split <;> rfl

/-! ### The invariant at each part of a step -/

theorem stateInv_exec {i : Instr} {s t : State} (hs : stateInv s = true)
    (h : exec i s = .next t) : stateInv t = true := by
  rcases exec_cases h with ⟨hok, rfl⟩ | ⟨-, rfl⟩
  · have hpre := ((callOk_iff i s).1 hok).1
    exact stateInv_of_sameSize hs rfl (regionInv_commandResult hpre (regionInv_of_stateInv hs)) nofun
  · exact stateInv_of_sameSize hs rfl (regionInv_scrambleRegion s) nofun

theorem stateInv_engineStep {s t : State} (hs : stateInv s = true)
    (h : engineStep s = .next t) : stateInv t = true := by
  have hmem := regionInv_of_stateInv hs
  rcases engineStep_cases h with ⟨-, -, rfl⟩ | ⟨p, rest, -, -, rfl⟩ | ⟨i, -, -, hexec⟩ |
    ⟨why, -, -, rfl⟩
  · exact hs
  · exact stateInv_of_sameSize hs rfl hmem fun _ => rfl
  · exact stateInv_exec hs hexec
  · exact stateInv_of_sameSize hs rfl hmem nofun

theorem stateInv_hostPresent {s : State} (hs : stateInv s = true) (p : Packet) :
    stateInv (hostPresent p s) = true :=
  stateInv_of_sameSize hs rfl (regionInv_of_stateInv hs) (busy_of_disturbed hs)

/-- A host write disturbs a call only while one is running. -/
theorem busy_of_disturbsRunning {s : State} {a : Nat} (h : disturbsRunning s a = true) :
    s.status = .busy := by
  simp only [disturbsRunning, Bool.and_eq_true, decide_eq_true_eq] at h
  exact h.1

theorem stateInv_hostWrite {a : Nat} {b : Byte} {s t : State} (hs : stateInv s = true)
    (h : hostWrite a b s = .next t) : stateInv t = true := by
  obtain ⟨ha, rfl⟩ := hostWrite_cases h
  refine stateInv_of_sameSize hs rfl (regionInv_write ha (regionInv_of_stateInv hs) b) fun hd => ?_
  rcases Bool.or_eq_true_iff.1 hd with hd | hd
  · exact busy_of_disturbed (s := s) hs hd
  · exact busy_of_disturbsRunning hd

/-- A host read changes the record of what it returned and the draw counter, nothing else. -/
theorem stateInv_hostRead {a : Nat} {s t : State} (hs : stateInv s = true)
    (h : hostRead a s = .next t) : stateInv t = true := by
  obtain ⟨-, ⟨-, rfl⟩ | ⟨-, rfl⟩⟩ := hostRead_cases h <;> exact hs

theorem stateInv_hostGrow {n : Nat} {s t : State} (hs : stateInv s = true)
    (h : hostGrow n s = .next t) : stateInv t = true := by
  obtain ⟨-, -, hmax, rfl⟩ := hostGrow_cases h
  obtain ⟨hmem, hpos, -, hdist⟩ := (stateInv_iff s).1 hs
  have hold := regionInv_mono (Nat.le_add_right s.memSize n) hmem
  exact (stateInv_iff _).2 ⟨regionInv_freeFill le_rfl hold s.free, le_add_right hpos, hmax, hdist⟩

/-- What a reset leaves of the region while a call that is not `OK` is running: free bytes. -/
theorem hostReset_mem_of_not_callOk {s : State} {i : Instr} (hr : runningCommand s = some i)
    (hc : callOk i s = false) : (hostReset s).mem = (scrambleRegion s).mem := by
  simp [hostReset, regionAfterReset, hr, hc]

theorem regionInv_hostReset {s : State} (hm : RegionInv s.memSize s.mem) :
    RegionInv s.memSize (hostReset s).mem := by
  cases hr : runningCommand s with
  | none => rwa [hostReset_mem_of_none hr]
  | some i =>
    cases hc : callOk i s with
    | false =>
      rw [hostReset_mem_of_not_callOk hr hc]
      exact regionInv_scrambleRegion s
    | true =>
      rw [hostReset_mem_of_callOk hr hc]
      have hout := outSpan_hi_le_of_preconditions ((callOk_iff i s).1 hc).1
      have hspan := outSpan_lo_le_hi i
      exact regionInv_freeFill (by omega) hm s.free

theorem stateInv_hostReset {s : State} (hs : stateInv s = true) : stateInv (hostReset s) = true :=
  stateInv_of_sameSize hs (hostReset_memSize s) (regionInv_hostReset (regionInv_of_stateInv hs)) nofun

/-- Settles O46: each of the actions of a step keeps the invariant. -/
theorem stepKeepsInvariant : Obligations.StepKeepsInvariant := by
  intro s t hs hstep
  rcases step_cases hstep with ⟨-, hengine⟩ | ⟨p, rest, -, rfl⟩ | ⟨a, b, rest, -, hwrite⟩ |
    ⟨a, rest, -, hread⟩ | ⟨r, later, rest, -, -, rfl⟩ | ⟨n, rest, -, hgrow⟩ | ⟨rest, -, rfl⟩
  · exact stateInv_engineStep ((stateInv_engineState s).trans hs) hengine
  · exact stateInv_hostPresent (s := { s with host := rest }) hs p
  · exact stateInv_hostWrite (s := { s with host := rest }) hs hwrite
  · exact stateInv_hostRead (s := { s with host := rest }) hs hread
  · exact hs
  · exact stateInv_hostGrow (s := { s with host := rest }) hs hgrow
  · exact stateInv_hostReset (s := { s with host := rest }) hs

/-- Settles O47: each part of the invariant holds of the reset values by computation. -/
theorem resetHasInvariant : Obligations.ResetHasInvariant :=
  ⟨by decide, rfl, rfl, rfl⟩

/-! ### What changes the status (R23) -/

/-- Every command that ends has been answered 0 (R86, R220). -/
theorem answered_of_exec {i : Instr} {s t : State} (h : exec i s = .next t) :
    Answered s t responseLegal := by
  rcases exec_cases h with ⟨-, rfl⟩ | ⟨-, rfl⟩
  · exact answered_deliverResponse _ _
  · exact answered_deliverResponse_scrambleRegion _ _

/-- The engine's turn that makes it `BUSY` accepts the oldest presented packet (R73). -/
theorem engineStep_accepts {s t : State} (h : engineStep s = .next t) (hs : s.status = .idle)
    (ht : t.status = .busy) :
    ∃ p rest, s.cmdChan = p :: rest ∧ latchedPacket t = p.packet := by
  rcases engineStep_cases h with ⟨-, -, rfl⟩ | ⟨p, rest, -, hchan, rfl⟩ | ⟨i, hbusy, -⟩ |
    ⟨why, hbusy, -⟩
  · simp [hs] at ht
  · exact ⟨p, rest, hchan, latchedPacket_latchPacket _ _ _⟩
  · simp [hs] at hbusy
  · simp [hs] at hbusy

/-- The turn of a `BUSY` engine delivers one response, 0 or 1 (R86). -/
theorem engineStep_answers {s t : State} (h : engineStep s = .next t) (hs : s.status = .busy) :
    ∃ rsp : Word, (rsp = 0 ∨ rsp = 1) ∧ t.rspChan = s.rspChan ++ [rsp] := by
  rcases engineStep_cases h with ⟨hidle, -⟩ | ⟨p, rest, hidle, -⟩ | ⟨i, -, -, hexec⟩ |
    ⟨why, -, -, rfl⟩
  · simp [hs] at hidle
  · simp [hs] at hidle
  · obtain ⟨-, hrsp, -⟩ := answered_of_exec hexec
    exact ⟨responseLegal, .inl rfl, hrsp⟩
  · exact ⟨responseIllegal, .inr rfl, deliverResponse_rspChan _ _⟩

/-- Whatever the host does but a reset leaves the status alone. -/
theorem step_status_cases {s t : State} (h : step s = .next t) :
    (engineIsNext s = true ∧ engineStep (engineState s) = .next t) ∨
    ((∃ rest, s.host = .assertReset :: rest) ∧ t.status = .idle) ∨ t.status = s.status := by
  rcases step_cases h with hengine | ⟨p, rest, -, rfl⟩ | ⟨a, b, rest, -, hwrite⟩ |
    ⟨a, rest, -, hread⟩ | ⟨r, later, rest, -, -, rfl⟩ | ⟨n, rest, -, hgrow⟩ | ⟨rest, hhost, rfl⟩
  · exact .inl hengine
  · exact .inr (.inr rfl)
  · obtain ⟨-, rfl⟩ := hostWrite_cases hwrite
    exact .inr (.inr rfl)
  · obtain ⟨-, ⟨-, rfl⟩ | ⟨-, rfl⟩⟩ := hostRead_cases hread <;> exact .inr (.inr rfl)
  · exact .inr (.inr rfl)
  · obtain ⟨-, -, -, rfl⟩ := hostGrow_cases hgrow
    exact .inr (.inr rfl)
  · exact .inr (.inl ⟨⟨rest, hhost⟩, rfl⟩)

/-- Settles O9: the engine's turn changes the status by an acceptance or a response, a reset makes it
`IDLE`, and no other action changes it. -/
theorem statusChangesOnlyByAcceptanceAndResponse :
    Obligations.StatusChangesOnlyByAcceptanceAndResponse := by
  intro s t hstep
  rcases step_status_cases hstep with ⟨-, hengine⟩ | ⟨hreset, hidle⟩ | hsame
  · refine ⟨fun hs ht => ?_, fun hs _ => .inl ?_⟩
    · simpa using engineStep_accepts hengine (by simpa using hs) ht
    · simpa using engineStep_answers hengine (by simpa using hs)
  · exact ⟨fun _ ht => by simp [hidle] at ht, fun _ _ => .inr hreset⟩
  · exact ⟨fun hs ht => by simp [hsame, hs] at ht, fun hs ht => by simp [hsame, hs] at ht⟩

/-! ### What changes the region (R33, R55) -/

/-- The engine's turn changes the region only by running a legal command (R224). -/
theorem engineStep_mem_changes {s t : State} (h : engineStep s = .next t) (hne : t.mem ≠ s.mem) :
    s.status = .busy ∧ ∃ i, decode (latchedPacket s) = .legal i := by
  rcases engineStep_cases h with ⟨-, -, rfl⟩ | ⟨p, rest, -, -, rfl⟩ | ⟨i, hbusy, hlegal, -⟩ |
    ⟨why, -, -, rfl⟩
  · exact absurd rfl hne
  · exact absurd rfl hne
  · exact ⟨hbusy, i, hlegal⟩
  · exact absurd rfl hne

theorem hostRead_mem {a : Nat} {s t : State} (h : hostRead a s = .next t) : t.mem = s.mem := by
  obtain ⟨-, ⟨-, rfl⟩ | ⟨-, rfl⟩⟩ := hostRead_cases h <;> rfl

/-- A reset changes the region only while a legal command is running (R250, R252). -/
theorem hostReset_mem_changes {s : State} (hne : (hostReset s).mem ≠ s.mem) :
    s.status = .busy ∧ ∃ i, decode (latchedPacket s) = .legal i := by
  cases hr : runningCommand s with
  | none => exact absurd (hostReset_mem_of_none hr) hne
  | some i =>
    obtain ⟨hbusy, hlegal⟩ := runningCommand_some hr
    exact ⟨hbusy, i, hlegal⟩

/-- Settles O49: of the actions of a step, presenting, reading and taking a response leave the region
alone; the others are the ones listed. -/
theorem regionChangesOnlyByCallsAndHost : Obligations.RegionChangesOnlyByCallsAndHost := by
  intro s t hstep hne
  rcases step_cases hstep with ⟨hnext, hengine⟩ | ⟨p, rest, -, rfl⟩ | ⟨a, b, rest, hhost, -⟩ |
    ⟨a, rest, -, hread⟩ | ⟨r, later, rest, -, -, rfl⟩ | ⟨n, rest, hhost, -⟩ | ⟨rest, hhost, rfl⟩
  · have hcall := engineStep_mem_changes hengine (by simpa using hne)
    exact .inl ⟨hnext, by simpa using hcall⟩
  · exact absurd rfl hne
  · exact .inr (.inl ⟨a, b, rest, hhost⟩)
  · exact absurd (hostRead_mem hread) hne
  · exact absurd rfl hne
  · exact .inr (.inr (.inl ⟨n, rest, hhost⟩))
  · exact .inr (.inr (.inr ⟨rest, hhost, hostReset_mem_changes (s := { s with host := rest }) hne⟩))

/-! ### What a call leaves in the latches (R24), and what its result depends on (R22) -/

/-- Every command ends with the delivery of its response, in a state whose draw counter has not gone
back. -/
theorem exec_eq_deliverResponse (i : Instr) (s : State) :
    ∃ u, exec i s = .next (deliverResponse responseLegal u) ∧ s.free ≤ u.free := by
  cases hc : callOk i s with
  | true => exact ⟨_, exec_of_callOk hc, le_rfl⟩
  | false => exact ⟨_, exec_of_not_callOk hc, Nat.le_succ s.free⟩

/-- After a response the operand latches hold the free words of one draw (log entry 4). -/
theorem deliverResponse_x_getElem (rsp : Word) (s : State) {k : Nat} (h : k < 8) :
    (deliverResponse rsp s).x[k] = Config.freeWord s.free k := by
  simp only [deliverResponse_x]
  interval_cases k <;> rfl

/-- Settles O16: the response that ends a call draws the words of the latches. -/
theorem callReleasesLatches : Obligations.CallReleasesLatches := by
  intro i s
  obtain ⟨u, hexec, hfree⟩ := exec_eq_deliverResponse i s
  exact ⟨_, hexec, Nat.lt_succ_of_le hfree, fun k hk => deliverResponse_x_getElem responseLegal u hk⟩

/-- Settles O29: the region after an `OK` call is `commandResult` of the region at acceptance. -/
theorem resultDependsOnPacketAndMemory : Obligations.ResultDependsOnPacketAndMemory := by
  intro i s s' hok hok' hmem
  have hresult : commandResult i s.mem = commandResult i s'.mem := congrArg (commandResult i) hmem
  exact ⟨_, _, exec_of_callOk hok, exec_of_callOk hok', hresult⟩

/-! ### Host access at or past `MEM_SIZE` (log entry 12) -/

theorem hostRead_outside {s : State} {a : Nat} (ha : s.memSize ≤ a) :
    hostRead a s = .fault .hostAddressOutsideRegion := by
  rw [hostRead, if_neg (by omega)]

theorem hostWrite_outside {s : State} {a : Nat} (b : Byte) (ha : s.memSize ≤ a) :
    hostWrite a b s = .fault .hostAddressOutsideRegion := by
  rw [hostWrite, if_neg (by omega)]

/-- Settles O56: both actions test the address before anything else. -/
theorem hostAccessOutsideRegionFaults : Obligations.HostAccessOutsideRegionFaults :=
  fun s _ rest ha =>
    ⟨fun hhost => (step_read hhost).trans (hostRead_outside (s := { s with host := rest }) ha),
      fun b hhost => (step_write hhost).trans (hostWrite_outside (s := { s with host := rest }) b ha)⟩

end Sys2Proof.Machine
end

section
/-!
PROOFS. The region (20_memory.md): multi-byte values (R41), host access with no call in progress (R45,
R55) and during a call (R63), the preconditions (R49 to R51), and what an `OK` command writes (R53).
-/

namespace Sys2Proof.Machine

/-! ### Multi-byte values (R41) -/

theorem memRead_eq_sum (m : Memory) (n : Nat) : ∀ addr,
    memRead m addr n = ∑ k ∈ Finset.range n, (m.read (addr + k)).toNat * 256 ^ k := by
  induction n with
  | zero => intro addr; rfl
  | succ n ih =>
    intro addr
    have hshift : ∀ k, (m.read (addr + 1 + k)).toNat * 256 ^ k * 256 =
        (m.read (addr + (k + 1))).toNat * 256 ^ (k + 1) := fun k => by
      rw [pow_succ, ← Nat.mul_assoc, Nat.add_right_comm, Nat.add_assoc]
    rw [memRead, ih, Finset.sum_range_succ', Nat.mul_comm 256, Finset.sum_mul,
      Finset.sum_congr rfl fun k _ => hshift k, Nat.add_comm]
    simp

/-- Bytes that are the base-256 digits of `v` read as `v`, modulo their width. -/
theorem memRead_of_digits {m : Memory} (n : Nat) : ∀ {addr v : Nat},
    (∀ k < n, (m.read (addr + k)).toNat = (v >>> (8 * k)) % 256) →
      memRead m addr n = v % 256 ^ n := by
  induction n with
  | zero => intro addr v _; simp [memRead, Nat.mod_one]
  | succ n ih =>
    intro addr v hdigit
    have hlow : (m.read addr).toNat = v % 256 := hdigit 0 n.succ_pos
    have hhigh : memRead m (addr + 1) n = v / 256 % 256 ^ n := ih fun k hk => by
      rw [Nat.add_right_comm, Nat.add_assoc, hdigit (k + 1) (by omega), Nat.mul_succ, Nat.add_comm,
        Nat.shiftRight_add, Nat.shiftRight_eq_div_pow v]
    rw [memRead, hlow, hhigh, pow_succ', Nat.mod_mul]

theorem toNat_read_memWrite {m : Memory} (hm : m.wf = true) {addr n v k : Nat} (hk : k < n) :
    ((memWrite m addr n v).read (addr + k)).toNat = (v >>> (8 * k)) % 256 := by
  rw [read_memWrite hm, if_pos (by omega), Nat.add_sub_cancel_left, BitVec.toNat_ofNat]

theorem sameOutside_memWrite {m : Memory} (hm : m.wf = true) (addr n v : Nat) :
    SameOutside addr (addr + n) m (memWrite m addr n v) := fun a ha => by
  rw [read_memWrite hm, if_neg (by omega)]

/-- Settles O48: what `memWrite` leaves are the base-256 digits of its value, and `memRead` sums them
up. -/
theorem multiByteValuesAreLittleEndian : Obligations.MultiByteValuesAreLittleEndian :=
  fun m addr n v hm =>
    ⟨memRead_eq_sum m n addr, fun _ hk => toNat_read_memWrite hm hk, sameOutside_memWrite hm addr n v,
      memRead_of_digits n fun _ hk => toNat_read_memWrite hm hk⟩

/-! ### A host write, and a host read with no call in progress (R45, R55) -/

/-- What a host write inside the region does, field by field: its byte, the marks of the calls it
disturbs (R63, R267), and nothing else. -/
theorem step_write_inside {s : State} {a : Nat} {b : Byte} {rest : List HostAction}
    (ha : a < s.memSize) (hhost : s.host = .write a b :: rest) :
    ∃ t, step s = .next t ∧ t.mem = s.mem.write a b ∧ t.memSize = s.memSize ∧
      t.status = s.status ∧ latchedPacket t = latchedPacket s ∧
      t.disturbed = (s.disturbed || disturbsRunning s a) ∧
      t.cmdChan = s.cmdChan.map (fun p => ⟨p.packet, p.disturbed || packetUses p.packet a⟩) ∧
      t.host = rest ∧ t.hostReads = s.hostReads ∧ t.free = s.free :=
  ⟨_, (step_write hhost).trans (hostWrite_inside b ha), rfl, rfl, rfl, rfl, rfl, rfl, rfl, rfl, rfl⟩

/-- With nothing running or presented every host read is plain. -/
theorem readIsUnspecified_of_noCall {s : State} (hidle : s.status = .idle) (hchan : s.cmdChan = [])
    (a : Nat) : readIsUnspecified s a = false := by
  rw [readIsUnspecified_idle hidle, hchan]
  rfl

/-- Settles O52: the write leaves the engine idle with nothing presented, so the read is plain. -/
theorem hostReadsLastValueWritten : Obligations.HostReadsLastValueWritten := by
  intro s a b rest hm ha hidle hchan hhost
  obtain ⟨t, hwrite, hmem, hsize, hstatus, -, -, htchan, hthost, hreads, -⟩ :=
    step_write_inside ha hhost
  have hplain : readIsUnspecified t a = false :=
    readIsUnspecified_of_noCall (hstatus.trans hidle) (by simp [htchan, hchan]) a
  have hread := (step_read hthost).trans
    (hostRead_plain (s := { t with host := rest }) (hsize ▸ ha) hplain)
  refine ⟨t, _, hwrite, hread, ?_, rfl, rfl, fun c hc => ?_⟩
  · simp [hreads, hmem, hm]
  · rw [hmem, read_write_other hm hc]

/-! ### Host access during a call (R63) -/

/-- Settles O53: whether the byte is free or plain, the read changes the host's record and the draw
counter only. -/
theorem hostReadDuringCall : Obligations.HostReadDuringCall := by
  intro s i a rest ha hbusy hlegal hhost
  have hstep := step_read hhost
  have hfree := readIsUnspecified_running hbusy hlegal a
  cases hu : readIsUnspecified s a with
  | true =>
    refine ⟨_, _, hstep.trans (hostRead_free ha hu), rfl, rfl, hbusy, rfl, rfl, rfl, fun _ => rfl,
      fun hout hok => ?_⟩
    simp [hu, hout, hok] at hfree
  | false =>
    refine ⟨_, _, hstep.trans (hostRead_plain ha hu), rfl, rfl, hbusy, rfl, rfl, rfl, fun hout => ?_,
      fun _ _ => rfl⟩
    simp [hu, hout] at hfree

/-- A call that the host disturbed is not `OK` (R63, R267). -/
theorem callOk_of_disturbed {s : State} (h : s.disturbed = true) (i : Instr) :
    callOk i s = false := by
  simp [callOk, h]

/-- While a call runs, the bytes whose writing disturbs it are those of its own ranges. -/
theorem disturbsRunning_of_busy {s : State} (hbusy : s.status = .busy) (a : Nat) :
    disturbsRunning s a = packetUses (latchedPacket s) a := by
  simp [disturbsRunning, hbusy]

/-- The engine's turn at a legal command that is not `OK` ends the call as `UNSPEC` (R14, R222). -/
theorem step_of_unspecCall {t : State} {i : Instr} (hnext : engineIsNext t = true)
    (hbusy : t.status = .busy) (hlegal : decode (latchedPacket t) = .legal i)
    (hbad : callOk i t = false) :
    ∃ u, step t = .next u ∧ Answered (engineState t) u 0 ∧
      ∀ c, c < t.memSize → u.mem.read c = Config.freeByte t.free c := by
  obtain ⟨u, hexec, hanswered, -, hfree⟩ :=
    unspecCallLeavesRegionFree i (engineState t) (by simpa using hbad)
  refine ⟨u, ?_, hanswered, by simpa using hfree⟩
  rw [step_of_engineIsNext hnext, engineStep_legal (by simpa using hbusy) (by simpa using hlegal), hexec]

/-- Settles O54: the write marks the call exactly when the byte lies in one of its ranges, and the
engine's next turn runs a marked call as `UNSPEC`. -/
theorem hostWriteDuringCall : Obligations.HostWriteDuringCall := by
  intro s i a b rest hm ha hbusy hlegal hhost
  obtain ⟨t, hwrite, hmem, hsize, hstatus, hlatched, hdist, -, hthost, -⟩ :=
    step_write_inside ha hhost
  rw [disturbsRunning_of_busy hbusy] at hdist
  refine ⟨t, hwrite, by rw [hmem, read_write_same hm], hlatched, fun hoff => ?_, fun hin => ?_⟩
  · simp [callOk, hsize, hdist, hoff]
  · have hbad : callOk i t = false := callOk_of_disturbed (by simp [hdist, hin]) i
    rw [← hsize]
    exact step_of_unspecCall (by simp [engineIsNext, hthost]) (hstatus.trans hbusy)
      (hlatched ▸ hlegal) hbad

/-! ### The preconditions, operand by operand (R49 to R51) -/

theorem preconditions_iff (i : Instr) (size : Nat) : preconditions i size = true ↔
    pShape i = true ∧ pPos i = true ∧
      ((srcSpan i).hi ≤ size ∧ (outSpan i).hi ≤ size) ∧
      ((srcSpan i).hi ≤ (outSpan i).lo ∨ (outSpan i).hi ≤ (srcSpan i).lo) := by
  simp [preconditions, pRange, pDisj, and_assoc]

theorem callOk_iff_of_undisturbed {s : State} (h : s.disturbed = false) (i : Instr) :
    callOk i s = true ↔ preconditions i s.memSize = true := by
  simp [callOk_iff, h]

/-- Settles O30: the conditions of each command are those on its own operands, that the operands are
positive, that the ranges lie inside the region, and that they are disjoint. -/
theorem outcomeOkExactlyWhen : Obligations.OutcomeOkExactlyWhen := by
  intro s hs
  simp only [callOk_iff_of_undisturbed hs, preconditions_iff, pShape, pPos, srcSpan, outSpan, spanOf,
    Bool.and_eq_true, decide_eq_true_eq, true_and, and_assoc, ← Nat.add_assoc, implies_true, and_self]

/-! ### What an `OK` command writes (R53) -/

/-- The source address of element `k` of a CHW tensor of `w` columns and `h` rows, where `source c j i`
is the one of plane `c`, row `j`, column `i` (R48). -/
def chwSource (w h : Nat) (source : Nat → Nat → Nat → Nat) (k : Nat) : Nat :=
  source (k / (w * h)) (k % (w * h) / w) (k % (w * h) % w)

/-- The source address of each element of the result of `NV12_TO_CHW` (R142). -/
def nv12Source (src w h : Nat) : Nat → Nat → Nat → Nat
  | 0, j, i => src + (j * w + i)
  | 1, j, i => src + w * h + j / 2 * w + 2 * (i / 2)
  | _, j, i => src + w * h + j / 2 * w + 2 * (i / 2) + 1

/-- The source address of each element of the result of `I420_TO_CHW` (R162). -/
def i420Source (src w h : Nat) : Nat → Nat → Nat → Nat
  | 0, j, i => src + (j * w + i)
  | 1, j, i => src + w * h + j / 2 * (w / 2) + i / 2
  | _, j, i => src + w * h + w * h / 4 + j / 2 * (w / 2) + i / 2

/-- The source address of each element of the result of `TILE_TO_CHW` (R180). -/
def tileSource (src x y fw fh : Nat) : Nat → Nat → Nat → Nat
  | 0, j, i => src + (y + j) * fw + (x + i)
  | 1, j, i => tileChromaCorner (tileUBase src fw fh) x y fw + j / 2 * (fw >>> 1) + i / 2
  | _, j, i => tileChromaCorner (tileVBase src fw fh) x y fw + j / 2 * (fw >>> 1) + i / 2

/-- The byte at an address of the tensor at `d` whose element `k` is the normalized sample at
`source k` of the frame (R15, R100). -/
def normalizedByte (frame : Memory) (d : Nat) (source : Nat → Nat) : Nat → Byte :=
  tensorByte d fun k => normByte (frame.read (source k))

/-- The byte at address `a` of the output range of a command, from the region at acceptance. -/
def outputByte : Instr → Memory → Nat → Byte
  | .yToHw src dst _, m => normalizedByte m dst fun k => src + k
  | .nv12ToChw src dst w h, m => normalizedByte m dst (chwSource w h (nv12Source src w h))
  | .i420ToChw src dst w h, m => normalizedByte m dst (chwSource w h (i420Source src w h))
  | .tileToChw src dst x y w h fw fh, m =>
    normalizedByte m dst (chwSource w h (tileSource src x y fw fh))
  | .bilinearUpscale src dst w h, m =>
    fun a => upscaledByte m src w h ((a - dst) / (2 * w)) ((a - dst) % (2 * w))

/-- The source address of the element in plane `c`, row `j`, column `i`. -/
theorem chwSource_index {w h c j i : Nat} (source : Nat → Nat → Nat → Nat) (hj : j < h) (hi : i < w) :
    chwSource w h source (c * (w * h) + (j * w + i)) = source c j i := by
  have hji : j * w + i < w * h := Nat.mul_comm h w ▸ index_lt_area hj hi
  have hdiv : (c * (w * h) + (j * w + i)) / (w * h) = c := by
    rw [Nat.mul_comm c, Nat.mul_add_div (by omega), Nat.div_eq_of_lt hji, Nat.add_zero]
  have hmod : (c * (w * h) + (j * w + i)) % (w * h) = j * w + i := by
    rw [Nat.mul_comm c, Nat.mul_add_mod, Nat.mod_eq_of_lt hji]
  have hrow : (j * w + i) / w = j := by
    rw [Nat.mul_comm j, Nat.mul_add_div (by omega), Nat.div_eq_of_lt hi, Nat.add_zero]
  have hcol : (j * w + i) % w = i := by rw [Nat.mul_comm j, Nat.mul_add_mod, Nat.mod_eq_of_lt hi]
  rw [chwSource, hdiv, hmod, hrow, hcol]

/-- The source address of element `k` of the first plane when the rows of its source plane lie one
behind the other. -/
theorem chwSource_firstPlane {w h k src : Nat} {source : Nat → Nat → Nat → Nat}
    (hsource : ∀ j i, source 0 j i = src + (j * w + i)) (hk : k < w * h) :
    chwSource w h source k = src + k := by
  rw [chwSource, Nat.div_eq_of_lt hk, Nat.mod_eq_of_lt hk, hsource, Nat.div_add_mod']

/-- The Y-plane converter paints a tensor of `n` elements whose sources are consecutive (R120). -/
theorem paints_convertSamples_normalized {frame : Memory} {src d n : Nat} {source : Nat → Nat}
    (hsource : ∀ k < n, source k = src + k) :
    Paints (tensorAddr d fun k => k < n) (normalizedByte frame d source)
      (convertSamples frame src d n) :=
  paints_tensor_congr (fun k => by omega)
    (paints_convertSamples (base := 0) fun k hk => by rw [Nat.zero_add, hsource k hk])

/-- The I420 chroma upsampler paints plane `c` of the tensor. -/
theorem paints_chromaPlane {frame : Memory} {pSrc pDst stride w h d : Nat} (c : Nat)
    {source : Nat → Nat → Nat → Nat} (hw : w % 2 = 0) (hh : h % 2 = 0)
    (hsource : ∀ j i, source c j i = pSrc + j / 2 * stride + i / 2)
    (hdst : pDst = d + 4 * (c * (w * h))) :
    Paints (tensorAddr d fun k => c * (w * h) ≤ k ∧ k < c * (w * h) + w * h)
      (normalizedByte frame d (chwSource w h source))
      (i420Upsample frame pSrc stride (h / 2) (w / 2) pDst) := by
  have hrows : 2 * (h / 2) = h := by omega
  have hcols : 2 * (w / 2) = w := by omega
  subst hdst
  refine paints_tensor_congr (fun k => by rw [area_of_even hw hh])
    (paints_i420Upsample fun j hj i hi => ?_)
  rw [hcols, chwSource_index source (by omega) (by omega), hsource]

/-- Painting the first plane, the second and the third paints the tensor. -/
theorem paints_threePlanes {d P : Nat} {val : Nat → Word} {T₀ T₁ T₂ : Memory → Memory}
    (h₀ : Paints (tensorAddr d fun k => k < P) (tensorByte d val) T₀)
    (h₁ : Paints (tensorAddr d fun k => 1 * P ≤ k ∧ k < 1 * P + P) (tensorByte d val) T₁)
    (h₂ : Paints (tensorAddr d fun k => 2 * P ≤ k ∧ k < 2 * P + P) (tensorByte d val) T₂) :
    Paints (tensorAddr d fun k => k < 3 * P) (tensorByte d val) (fun m => T₂ (T₁ (T₀ m))) := by
  refine paints_tensor_congr (fun k => ?_) (paints_tensor_seq (paints_tensor_seq h₀ h₁) h₂)
  omega

theorem paints_i420Frame {frame : Memory} {src d w h : Nat} (hw : w % 2 = 0) (hh : h % 2 = 0) :
    Paints (tensorAddr d fun k => k < 3 * (w * h))
      (normalizedByte frame d (chwSource w h (i420Source src w h))) (i420Frame frame src d w h) :=
  paints_threePlanes
    (paints_convertSamples_normalized fun _ => chwSource_firstPlane fun _ _ => rfl)
    (paints_chromaPlane 1 hw hh (fun _ _ => rfl) (by omega))
    (paints_chromaPlane 2 hw hh (fun _ _ => rfl) (by omega))

theorem paints_tileFrame {frame : Memory} {src d x y w h fw fh : Nat} (hw : w % 2 = 0)
    (hh : h % 2 = 0) :
    Paints (tensorAddr d fun k => k < 3 * (w * h))
      (normalizedByte frame d (chwSource w h (tileSource src x y fw fh)))
      (tileFrame frame src d x y w h fw fh) :=
  paints_threePlanes
    (paints_tileLuma fun j hj i hi => by
      have := chwSource_index (c := 0) (tileSource src x y fw fh) hj hi
      rw [Nat.zero_mul, Nat.zero_add] at this
      rw [this, tileSource])
    (paints_chromaPlane 1 hw hh (fun _ _ => rfl) (by omega))
    (paints_chromaPlane 2 hw hh (fun _ _ => rfl) (by omega))

theorem paints_nv12Frame {frame : Memory} {src d w h : Nat} (hw : w % 2 = 0) (hh : h % 2 = 0) :
    Paints (tensorAddr d fun k => k < 3 * (w * h))
      (normalizedByte frame d (chwSource w h (nv12Source src w h))) (nv12Frame frame src d w h) := by
  have hrows : 2 * (h / 2) = h := by omega
  have hcols : 2 * (w / 2) = w := by omega
  have harea := area_of_even hw hh
  have hY : Paints _ (normalizedByte frame d (chwSource w h (nv12Source src w h))) _ :=
    paints_convertSamples_normalized fun _ => chwSource_firstPlane fun _ _ => rfl
  have hUV := paints_nv12Upsample (frame := frame) (uvSrc := src + w * h) (rows := h / 2)
    (cols := w / 2) (d := d) (base := w * h)
    (val := fun k => normByte (frame.read (chwSource w h (nv12Source src w h) k)))
    (fun j hj i hi => by
      have := chwSource_index (c := 1) (nv12Source src w h) (hrows ▸ hj) (hcols ▸ hi)
      rw [Nat.one_mul] at this
      rw [hcols, this]
      rfl)
    (fun j hj i hi => by
      have := chwSource_index (c := 2) (nv12Source src w h) (hrows ▸ hj) (hcols ▸ hi)
      rw [Nat.two_mul] at this
      rw [harea, hcols, this]
      rfl)
  rw [harea, hcols, show d + 4 * (w * h + w * h) = d + 8 * (w * h) by ring] at hUV
  have hplanes := paints_tensor_seq hY hUV
  exact paints_tensor_congr (T := nv12Frame frame src d w h) (fun k => by omega) hplanes

theorem spanHas_iff (r : Span) (a : Nat) : spanHas r a = true ↔ r.lo ≤ a ∧ a < r.hi := by
  simp [spanHas]

theorem spanHas_spanOf (lo n a : Nat) :
    spanHas (spanOf lo n) a = true ↔ lo ≤ a ∧ a < lo + n :=
  spanHas_iff (spanOf lo n) a

/-- The addresses of a tensor of `n` floats are its `4*n` bytes (R48). -/
theorem tensorAddr_iff (d n a : Nat) :
    tensorAddr d (fun k => k < n) a ↔ spanHas (spanOf d (4 * n)) a = true := by
  rw [spanHas_spanOf, tensorAddr]
  omega

/-- A painted tensor fills its byte range. -/
theorem paints_span_of_tensor {d size : Nat} (n : Nat) {f : Nat → Byte} {T : Memory → Memory}
    (hsize : size = 4 * n) (h : Paints (tensorAddr d fun k => k < n) f T) :
    Paints (fun a => spanHas (spanOf d size) a = true) f T :=
  hsize ▸ paints_congr (tensorAddr_iff d n) (fun _ _ => rfl) h

/-- What every command paints: its output range, with its output bytes (R53). -/
theorem commandResult_paints {i : Instr} (hshape : pShape i = true) (frame : Memory) :
    ∃ T, commandResult i frame = T frame ∧
      Paints (fun a => spanHas (outSpan i) a = true) (outputByte i frame) T := by
  cases i with
  | yToHw src dst n =>
    exact ⟨convertSamples frame src dst n, rfl,
      paints_span_of_tensor n rfl (paints_convertSamples_normalized fun _ _ => rfl)⟩
  | nv12ToChw src dst w h =>
    simp only [pShape, Bool.and_eq_true, decide_eq_true_eq] at hshape
    obtain ⟨hw, hh⟩ := hshape
    exact ⟨nv12Frame frame src dst w h, rfl,
      paints_span_of_tensor (3 * (w * h)) (by omega) (paints_nv12Frame (by omega) hh)⟩
  | i420ToChw src dst w h =>
    simp only [pShape, Bool.and_eq_true, decide_eq_true_eq] at hshape
    obtain ⟨hw, hh⟩ := hshape
    exact ⟨i420Frame frame src dst w h, rfl,
      paints_span_of_tensor (3 * (w * h)) (by omega) (paints_i420Frame (by omega) hh)⟩
  | tileToChw src dst x y w h fw fh =>
    simp only [pShape, Bool.and_eq_true, decide_eq_true_eq] at hshape
    obtain ⟨⟨⟨⟨⟨⟨-, hw⟩, hh⟩, -⟩, -⟩, -⟩, -⟩ := hshape
    exact ⟨tileFrame frame src dst x y w h fw fh, rfl,
      paints_span_of_tensor (3 * (w * h)) (by omega) (paints_tileFrame (by omega) hh)⟩
  | bilinearUpscale src dst w h =>
    have harea : 2 * h * (2 * w) = 4 * (w * h) := by ring
    refine ⟨upscaleChannel frame src dst w h, rfl,
      paints_congr (fun a => ?_) (fun _ _ => rfl) paints_upscaleChannel⟩
    rw [outSpan, spanHas_spanOf, harea]

/-- What an `OK` command leaves at every address: the output byte in its output range, the old byte
elsewhere (R53). -/
theorem read_commandResult {i : Instr} {m : Memory} (hshape : pShape i = true) (hm : m.wf = true)
    (a : Nat) : (commandResult i m).read a =
      if spanHas (outSpan i) a = true then outputByte i m a else m.read a := by
  obtain ⟨T, hT, hpaints⟩ := commandResult_paints hshape m
  obtain ⟨hin, hout⟩ := (hpaints m hm).2 a
  rw [hT]
  split
  · exact hin ‹_›
  · exact hout ‹_›

/-! ### The output of an `OK` command depends on its source range only (R22, R53)

Every sample that a command reads lies in its source range. -/

theorem nv12Source_mem {src w h c j i : Nat} (hw : w % 2 = 0) (hh : h % 2 = 0) (hj : j < h)
    (hi : i < w) : spanHas (spanOf src (w * h + w * h / 2)) (nv12Source src w h c j i) = true := by
  have hluma : j * w + i < h * w := index_lt_area hj hi
  have hchroma : j / 2 * w + (2 * (i / 2) + 1) < h / 2 * w := index_lt_area (by omega) (by omega)
  have harea : 2 * (h / 2 * w) = w * h := by
    rw [← Nat.mul_assoc, Nat.mul_div_cancel' (Nat.dvd_of_mod_eq_zero hh), Nat.mul_comm]
  have hcomm : h * w = w * h := Nat.mul_comm h w
  rw [spanHas_spanOf]
  unfold nv12Source
  split <;> omega

theorem i420Source_mem {src w h c j i : Nat} (hw : w % 2 = 0) (hh : h % 2 = 0) (hj : j < h)
    (hi : i < w) : spanHas (spanOf src (w * h + w * h / 2)) (i420Source src w h c j i) = true := by
  have hluma : j * w + i < h * w := index_lt_area hj hi
  have hchroma : j / 2 * (w / 2) + i / 2 < h / 2 * (w / 2) := index_lt_area (by omega) (by omega)
  have harea : 4 * (h / 2 * (w / 2)) = w * h := by rw [← area_of_even hw hh]; ring
  have hcomm : h * w = w * h := Nat.mul_comm h w
  rw [spanHas_spanOf]
  unfold i420Source
  split <;> omega

theorem tileSource_mem {src x y w h fw fh c j i : Nat} (hfw : fw % 2 = 0) (hfh : fh % 2 = 0)
    (hx : x + w ≤ fw) (hy : y + h ≤ fh) (hj : j < h) (hi : i < w) :
    spanHas (spanOf src (fw * fh + fw * fh / 2)) (tileSource src x y fw fh c j i) = true := by
  have hluma : (y + j) * fw + (x + i) < fh * fw := index_lt_area (by omega) (by omega)
  have hchroma : (y / 2 + j / 2) * (fw / 2) + (x / 2 + i / 2) < fh / 2 * (fw / 2) :=
    index_lt_area (by omega) (by omega)
  have harea : 4 * (fh / 2 * (fw / 2)) = fw * fh := by rw [← area_of_even hfw hfh]; ring
  have hcomm : fh * fw = fw * fh := Nat.mul_comm fh fw
  have hplane : fw / 2 * (fh / 2) = fh / 2 * (fw / 2) := Nat.mul_comm _ _
  rw [Nat.add_mul] at hchroma
  rw [spanHas_spanOf]
  unfold tileSource
  simp only [tileChromaCorner, tileUBase, tileVBase, Nat.shiftRight_one]
  split <;> omega

/-- A byte of a tensor depends on the sample behind its element only. -/
theorem normalizedByte_congr {m m' : Memory} {d a : Nat} {source : Nat → Nat}
    (h : m'.read (source ((a - d) / 4)) = m.read (source ((a - d) / 4))) :
    normalizedByte m' d source a = normalizedByte m d source a := by
  simp only [normalizedByte, tensorByte, h]

/-- A byte of a CHW tensor depends on the source range as soon as each element's source lies in it. -/
theorem chwByte_congr {m m' : Memory} {r : Span} {d w h a : Nat} {source : Nat → Nat → Nat → Nat}
    (hw : 1 ≤ w) (hh : 1 ≤ h) (hsame : SameInside r.lo r.hi m m')
    (hsource : ∀ c j i, j < h → i < w → spanHas r (source c j i) = true) :
    normalizedByte m' d (chwSource w h source) a = normalizedByte m d (chwSource w h source) a := by
  refine normalizedByte_congr ?_
  have hrow : (a - d) / 4 % (w * h) / w < h :=
    Nat.div_lt_of_lt_mul (Nat.mod_lt _ (Nat.mul_pos hw hh))
  obtain ⟨hlo, hhi⟩ :=
    (spanHas_iff _ _).1 (hsource ((a - d) / 4 / (w * h)) _ _ hrow (Nat.mod_lt _ hw))
  exact hsame _ hlo hhi

/-- A clamped sample lies in the channel. -/
theorem clampedSample_congr {m m' : Memory} {src w h : Nat} (hw : 1 ≤ w) (hh : 1 ≤ h)
    (hsame : SameInside src (src + w * h) m m') (y x : Nat) :
    clampedSample m' src w h y x = clampedSample m src w h y x := by
  have hin : min y (h - 1) * w + min x (w - 1) < h * w := index_lt_area (by omega) (by omega)
  have hcomm : h * w = w * h := Nat.mul_comm h w
  exact hsame _ (by omega) (by omega)

/-- The output bytes of an `OK` command depend on its source range only. -/
theorem outputByte_congr {i : Instr} {size : Nat} {m m' : Memory} (hp : preconditions i size = true)
    (hsame : SameInside (srcSpan i).lo (srcSpan i).hi m m') {a : Nat}
    (ha : spanHas (outSpan i) a = true) : outputByte i m' a = outputByte i m a := by
  obtain ⟨hshape, hpos, -, -⟩ := (preconditions_iff i size).1 hp
  cases i with
  | yToHw src dst n =>
    rw [outSpan, spanHas_spanOf] at ha
    exact normalizedByte_congr (hsame _ (Nat.le_add_right _ _) (by simp only [srcSpan, spanOf]; omega))
  | nv12ToChw src dst w h =>
    simp only [pShape, pPos, Bool.and_eq_true, decide_eq_true_eq] at hshape hpos
    obtain ⟨hw, hh⟩ := hshape
    obtain ⟨hw1, hh1⟩ := hpos
    exact chwByte_congr hw1 hh1 hsame fun _ _ _ => nv12Source_mem (by omega) hh
  | i420ToChw src dst w h =>
    simp only [pShape, pPos, Bool.and_eq_true, decide_eq_true_eq] at hshape hpos
    obtain ⟨hw, hh⟩ := hshape
    obtain ⟨hw1, hh1⟩ := hpos
    exact chwByte_congr hw1 hh1 hsame fun _ _ _ => i420Source_mem (by omega) hh
  | tileToChw src dst x y w h fw fh =>
    simp only [pShape, pPos, Bool.and_eq_true, decide_eq_true_eq] at hshape hpos
    obtain ⟨⟨⟨⟨-, hfw⟩, hfh⟩, hx⟩, hy⟩ := hshape
    obtain ⟨⟨⟨hw, hh⟩, -⟩, -⟩ := hpos
    exact chwByte_congr hw hh hsame fun _ _ _ => tileSource_mem hfw hfh hx hy
  | bilinearUpscale src dst w h =>
    simp only [pPos, Bool.and_eq_true, decide_eq_true_eq] at hpos
    obtain ⟨hw, hh⟩ := hpos
    have hclamp := clampedSample_congr (src := src) hw hh hsame
    simp only [outputByte, upscaledByte, hclamp]

/-- Settles O28: an `OK` command paints its output range with bytes that depend on its source range
only, and the two ranges are disjoint. -/
theorem commandsWriteExactlyTheirOutput : Obligations.CommandsWriteExactlyTheirOutput := by
  intro i s hm hok
  have hpre := ((callOk_iff i s).1 hok).1
  obtain ⟨hshape, -, -, hdisj⟩ := (preconditions_iff i s.memSize).1 hpre
  refine ⟨_, exec_of_callOk hok, fun a ha => ?_, fun a hlo hhi => ?_, fun m hm' hsame => ?_⟩
  · exact (read_commandResult hshape hm a).trans (if_neg (by rw [spanHas_iff]; omega))
  · exact (read_commandResult hshape hm a).trans (if_neg (by rw [spanHas_iff]; omega))
  · refine ⟨_, exec_of_callOk (s := { s with mem := m }) hok, fun a hlo hhi => ?_⟩
    have ha := (spanHas_iff (outSpan i) a).2 ⟨hlo, hhi⟩
    calc (commandResult i m).read a
      _ = outputByte i m a := by rw [read_commandResult hshape hm', if_pos ha]
      _ = outputByte i s.mem a := outputByte_congr hpre hsame ha
      _ = (commandResult i s.mem).read a := by rw [read_commandResult hshape hm, if_pos ha]

end Sys2Proof.Machine
end

section
/-!
PROOFS. The encoding (30_encoding.md): what the decoder reads and the encoder writes (R71 to R74, R80 to
R82, R87), and the packets and responses on the two channels (R70, R73, R86).
-/

namespace Sys2Proof

/-! ### The parts of a packet (R71, R72) -/

theorem rsv0_append_opcode (p : Packet) : p.rsv0 ++ p.opcode = p.w0 :=
  BitVec.extractLsb'_append_extractLsb'

theorem w0_of_header {p : Packet} {k : BitVec 8} (hrsv : p.rsv0 = 0) (hop : p.opcode = k) :
    p.w0 = (0 : BitVec 24) ++ k := by
  rw [← rsv0_append_opcode, hrsv, hop]

theorem unusedF3Zero_iff (p : Packet) : p.unusedF3Zero = true ↔
    p.w4 = 0 ∧ p.w5 = 0 ∧ p.w6 = 0 ∧ p.w7 = 0 ∧ p.w8 = 0 := by
  simp [Packet.unusedF3Zero, and_assoc]

theorem unusedF4Zero_iff (p : Packet) : p.unusedF4Zero = true ↔
    p.w5 = 0 ∧ p.w6 = 0 ∧ p.w7 = 0 ∧ p.w8 = 0 := by
  simp [Packet.unusedF4Zero, and_assoc]

/-- A packet of format `F3` is its header and three operand words. -/
theorem eq_packetF3 {p : Packet} {k : Word} (hw0 : p.w0 = k) (hu : p.unusedF3Zero = true) :
    p = ⟨k, p.w1, p.w2, p.w3, 0, 0, 0, 0, 0⟩ := by
  obtain ⟨h4, h5, h6, h7, h8⟩ := (unusedF3Zero_iff p).1 hu
  cases p
  simp_all

/-- A packet of format `F4` is its header and four operand words. -/
theorem eq_packetF4 {p : Packet} {k : Word} (hw0 : p.w0 = k) (hu : p.unusedF4Zero = true) :
    p = ⟨k, p.w1, p.w2, p.w3, p.w4, 0, 0, 0, 0⟩ := by
  obtain ⟨h5, h6, h7, h8⟩ := (unusedF4Zero_iff p).1 hu
  cases p
  simp_all

/-- A packet of format `F8` is its header and eight operand words. -/
theorem eq_packetF8 {p : Packet} {k : Word} (hw0 : p.w0 = k) :
    p = ⟨k, p.w1, p.w2, p.w3, p.w4, p.w5, p.w6, p.w7, p.w8⟩ := by
  rw [← hw0]

/-! ### Operand words (R82) -/

theorem toNat_lt_word (v : Word) : v.toNat < 4294967296 := v.isLt

@[simp] theorem operandWord_toNat (v : Word) : operandWord v.toNat = v := BitVec.ofNat_toNat ..

theorem toNat_operandWord {v : Nat} (h : v < 4294967296) : (operandWord v).toNat = v :=
  (BitVec.toNat_ofNat ..).trans (Nat.mod_eq_of_lt h)

theorem instr_wf_iff (i : Instr) : i.wf = true ↔ ∀ v ∈ i.operands, v < 4294967296 := by
  simp [Instr.wf]

/-! ### The decoder at each header value (R74) -/

theorem decode_yToHw (a b n : Word) :
    decode ⟨0x00000001, a, b, n, 0, 0, 0, 0, 0⟩ = .legal (.yToHw a.toNat b.toNat n.toNat) := by
  simp [decode, Packet.rsv0, Packet.opcode, Packet.unusedF3Zero]

theorem decode_nv12ToChw (a b w h : Word) :
    decode ⟨0x00000002, a, b, w, h, 0, 0, 0, 0⟩ =
      .legal (.nv12ToChw a.toNat b.toNat w.toNat h.toNat) := by
  simp [decode, Packet.rsv0, Packet.opcode, Packet.unusedF4Zero]

theorem decode_i420ToChw (a b w h : Word) :
    decode ⟨0x00000003, a, b, w, h, 0, 0, 0, 0⟩ =
      .legal (.i420ToChw a.toNat b.toNat w.toNat h.toNat) := by
  simp [decode, Packet.rsv0, Packet.opcode, Packet.unusedF4Zero]

theorem decode_tileToChw (a b x y w h fw fh : Word) :
    decode ⟨0x00000004, a, b, x, y, w, h, fw, fh⟩ =
      .legal (.tileToChw a.toNat b.toNat x.toNat y.toNat w.toNat h.toNat fw.toNat fh.toNat) := by
  simp [decode, Packet.rsv0, Packet.opcode]

theorem decode_bilinearUpscale (a b w h : Word) :
    decode ⟨0x00000005, a, b, w, h, 0, 0, 0, 0⟩ =
      .legal (.bilinearUpscale a.toNat b.toNat w.toNat h.toNat) := by
  simp [decode, Packet.rsv0, Packet.opcode, Packet.unusedF4Zero]

/-! ### Decoding and encoding are inverse to each other (R81) -/

/-- Settles O1: an operand that fits its word is the value of that word. -/
theorem decodeEncodeEveryCommand : Obligations.DecodeEncodeEveryCommand := by
  intro i hwf
  have hfit : ∀ v ∈ i.operands, (operandWord v).toNat = v :=
    fun v hv => toNat_operandWord ((instr_wf_iff i).1 hwf v hv)
  cases i <;> simp only [Instr.operands, List.forall_mem_cons] at hfit
  case yToHw => simp only [encode, decode_yToHw, hfit]
  case nv12ToChw => simp only [encode, decode_nv12ToChw, hfit]
  case i420ToChw => simp only [encode, decode_i420ToChw, hfit]
  case tileToChw => simp only [encode, decode_tileToChw, hfit]
  case bilinearUpscale => simp only [encode, decode_bilinearUpscale, hfit]

/-- The encoder gives back the packet of a decoded command: the packet's header is the command's, and
the words its format does not use are 0. -/
theorem encode_of_decode {p : Packet} {i : Instr} (h : decode p = .legal i) : encode i = p := by
  unfold decode at h
  split_ifs at h with hrsv h1 hu h2 hu h3 hu h4 h5 hu
  all_goals
    cases h
    rw [not_not] at hrsv
    simp only [encode, operandWord_toNat]
  · exact (eq_packetF3 (w0_of_header hrsv h1) hu).symm
  · exact (eq_packetF4 (w0_of_header hrsv h2) hu).symm
  · exact (eq_packetF4 (w0_of_header hrsv h3) hu).symm
  · exact (eq_packetF8 (w0_of_header hrsv h4)).symm
  · exact (eq_packetF4 (w0_of_header hrsv h5) hu).symm

/-- The operands of a decoded command are the values of words. -/
theorem wf_of_decode {p : Packet} {i : Instr} (h : decode p = .legal i) : i.wf = true := by
  rw [instr_wf_iff]
  unfold decode at h
  split_ifs at h <;> cases h <;> simp [Instr.operands, toNat_lt_word]

theorem encodedHeader (i : Instr) : Laws.EncodedHeader.Statement i := by
  cases i
  · exact Laws.EncodedHeader.yToHw ..
  · exact Laws.EncodedHeader.nv12ToChw ..
  · exact Laws.EncodedHeader.i420ToChw ..
  · exact Laws.EncodedHeader.tileToChw ..
  · exact Laws.EncodedHeader.bilinearUpscale ..

/-- The header of a legal packet (R80 (a), (b)). -/
theorem header_of_decode {p : Packet} {i : Instr} (h : decode p = .legal i) :
    p.rsv0 = 0 ∧ 1 ≤ p.opcode.toNat ∧ p.opcode.toNat ≤ 5 := by
  obtain ⟨hrsv, hlo, hhi, -⟩ := encodedHeader i
  rw [encode_of_decode h] at hrsv hlo hhi
  exact ⟨hrsv, hlo, hhi⟩

theorem illegal_of_not_legal {p : Packet} (h : ¬ ∃ i, decode p = .legal i) :
    ∃ why, decode p = .illegal why := by
  cases hd : decode p with
  | legal i => exact absurd ⟨i, hd⟩ h
  | illegal why => exact ⟨why, rfl⟩

/-- A packet with reserved header bits set, or with an opcode outside 1 to 5, is illegal. -/
theorem illegal_of_header {p : Packet}
    (h : p.rsv0 ≠ 0 ∨ p.opcode = 0 ∨ 6 ≤ p.opcode.toNat) : ∃ why, decode p = .illegal why := by
  refine illegal_of_not_legal fun ⟨i, hi⟩ => ?_
  obtain ⟨hrsv, hlo, hhi⟩ := header_of_decode hi
  rcases h with hr | h0 | h6
  · exact hr hrsv
  · simp [h0] at hlo
  · omega

/-- Settles O2: the encoding recovers a legal packet, so two packets of one command are equal. -/
theorem legalPacketIsEncodingOfItsCommand : Obligations.LegalPacketIsEncodingOfItsCommand :=
  ⟨fun _ _ h => ⟨wf_of_decode h, encode_of_decode h⟩,
    fun _ _ _ hp hq => (encode_of_decode hp).symm.trans (encode_of_decode hq),
    fun _ h => illegal_of_header (.inr h)⟩

/-- The header condition of R80 (a), (b) leaves five values of `W0`. -/
theorem w0_of_legal_header {p : Packet}
    (h : p.rsv0 = 0 ∧ 1 ≤ p.opcode.toNat ∧ p.opcode.toNat ≤ 5) :
    p.w0 = 1 ∨ p.w0 = 2 ∨ p.w0 = 3 ∨ p.w0 = 4 ∨ p.w0 = 5 := by
  obtain ⟨hrsv, hlo, hhi⟩ := h
  rw [w0_of_header hrsv rfl]
  generalize p.opcode = k at hlo hhi
  revert k
  decide

/-- R80 with the formats of R72: such a packet is the packet of a command, and the encoder writes no
other. -/
theorem legal_iff (p : Packet) : (∃ i, decode p = .legal i) ↔
    (p.rsv0 = 0 ∧ 1 ≤ p.opcode.toNat ∧ p.opcode.toNat ≤ 5) ∧
      (p.w0 = 1 → p.unusedF3Zero = true) ∧
      ((p.w0 = 2 ∨ p.w0 = 3 ∨ p.w0 = 5) → p.unusedF4Zero = true) := by
  constructor
  · rintro ⟨i, hi⟩
    refine ⟨header_of_decode hi, ?_⟩
    rw [← encode_of_decode hi]
    cases i <;> simp [encode, Packet.unusedF3Zero, Packet.unusedF4Zero]
  · rintro ⟨hheader, hF3, hF4⟩
    rcases w0_of_legal_header hheader with h1 | h2 | h3 | h4 | h5
    · rw [eq_packetF3 h1 (hF3 h1)]
      exact ⟨_, decode_yToHw ..⟩
    · rw [eq_packetF4 h2 (hF4 (.inl h2))]
      exact ⟨_, decode_nv12ToChw ..⟩
    · rw [eq_packetF4 h3 (hF4 (.inr (.inl h3)))]
      exact ⟨_, decode_i420ToChw ..⟩
    · rw [eq_packetF8 h4]
      exact ⟨_, decode_tileToChw ..⟩
    · rw [eq_packetF4 h5 (hF4 (.inr (.inr h5)))]
      exact ⟨_, decode_bilinearUpscale ..⟩

theorem w0_of_decode {p : Packet} {i : Instr} (h : decode p = .legal i) : p.w0 = (encode i).w0 := by
  rw [encode_of_decode h]

/-- Settles O4: the header of a packet is the header its command is encoded with. -/
theorem headerSelectsCommand : Obligations.HeaderSelectsCommand :=
  ⟨fun _ _ _ _ _ _ _ _ => ⟨decode_yToHw .., decode_nv12ToChw .., decode_i420ToChw ..,
      decode_tileToChw .., decode_bilinearUpscale ..⟩,
    fun _ => ⟨fun _ _ _ h => w0_of_decode h, fun _ _ _ _ h => w0_of_decode h,
      fun _ _ _ _ h => w0_of_decode h, fun _ _ _ _ _ _ _ _ h => w0_of_decode h,
      fun _ _ _ _ h => w0_of_decode h⟩⟩

/-- Settles O5: the worked commands fit their words; the illegal packets have a forbidden header or a
non-zero unused word. -/
theorem workedEncodingsDecode : Obligations.WorkedEncodingsDecode :=
  ⟨decode_yToHw .., rfl, decode_tileToChw .., rfl,
    ⟨.unusedWordNotZero, by decide⟩,
    fun _ _ _ _ _ _ _ _ => ⟨illegal_of_header (.inr (.inl (by simp [Packet.opcode]))),
      illegal_of_header (.inr (.inr (by simp [Packet.opcode]))),
      illegal_of_header (.inl (by simp [Packet.rsv0]))⟩⟩

/-! ### The packet as a 288-bit vector (R71) -/

/-- No bit of either part is lost when two vectors are put together. -/
theorem append_inj_bits {n m : Nat} {x y : BitVec n} {v w : BitVec m} :
    x ++ v = y ++ w ↔ x = y ∧ v = w := by
  refine ⟨fun h => ⟨?_, ?_⟩, fun ⟨hx, hv⟩ => by rw [hx, hv]⟩
  · simpa only [BitVec.extractLsb'_append_eq_left] using congrArg (BitVec.extractLsb' m n) h
  · simpa only [BitVec.extractLsb'_append_eq_right] using congrArg (BitVec.extractLsb' 0 m) h

theorem toBits_injective {p q : Packet} (h : p.toBits = q.toBits) : p = q := by
  cases p
  cases q
  have hwords := append_inj_bits.1 h
  simp only [append_inj_bits] at hwords
  simp only [hwords]

/-- Neighbouring words of a vector, put together again, are one longer part of it. -/
theorem toBits_ofBits (v : BitVec 288) : (Packet.ofBits v).toBits = v := by
  simp only [Packet.ofBits, Packet.toBits, BitVec.extractLsb'_append_extractLsb'_eq_extractLsb']
  exact BitVec.extractLsb'_eq_self

theorem ofBits_toBits (p : Packet) : Packet.ofBits p.toBits = p :=
  toBits_injective (toBits_ofBits p.toBits)

/-- The words of a number are the words of its 288-bit vector. -/
theorem tablePacket_toNat (v : BitVec 288) : tablePacket 288 v.toNat = Packet.ofBits v := by
  rfl

theorem decodeTableWord_toBits {p : Packet} {i : Instr} (h : decode p = .legal i) :
    decodeTableWord 288 p.toBits.toNat = some i := by
  rw [decodeTableWord, tablePacket_toNat, ofBits_toBits, h]

/-- Settles O6: a table row of a command is the packet the encoder writes. -/
theorem packetIsIts288Bits : Obligations.PacketIsIts288Bits :=
  ⟨ofBits_toBits, toBits_ofBits,
    fun i hwf => decodeTableWord_toBits (decodeEncodeEveryCommand i hwf)⟩

end Sys2Proof

namespace Sys2Proof.Machine

/-- Settles O3: `legal_iff` in the words of R80, and the answer of the engine to any other packet. -/
theorem packetLegalExactlyWhen : Obligations.PacketLegalExactlyWhen := by
  refine ⟨fun p => ?_, fun s hbusy hnext hd => ?_⟩
  · simpa only [Packet.rsv0, Packet.opcode, unusedF3Zero_iff, unusedF4Zero_iff, and_assoc] using
      legal_iff p
  · obtain ⟨why, hwhy⟩ := illegal_of_not_legal hd
    have hstep : step s = .next (raiseIllegalCommand (engineState s)) := by
      rw [step_of_engineIsNext hnext, engineStep_illegal (why := why) (by simpa) (by simpa)]
    exact ⟨_, hstep, answered_deliverResponse .., engineState_mem s⟩

/-! ### The engine's turn (R73, R56) -/

/-- An `IDLE` engine with no packet presented waits (R236). -/
theorem engineStep_waits {s : State} (hidle : s.status = .idle) (hchan : s.cmdChan = []) :
    engineStep s = .next s := by
  rw [engineStep, hidle]
  simp only [acceptPacket, hchan]

theorem step_legal {s : State} {i : Instr} (hbusy : s.status = .busy)
    (hd : decode (latchedPacket s) = .legal i) (hnext : engineIsNext s = true) :
    step s = exec i (engineState s) := by
  rw [step_of_engineIsNext hnext, engineStep_legal (by simpa) (by simpa)]

/-- Settles O7: the engine's turn is the acceptance of the oldest packet. -/
theorem idleEngineAcceptsOldestPacket : Obligations.IdleEngineAcceptsOldestPacket := by
  intro s p rest hidle hchan hnext
  refine ⟨_, (step_of_engineIsNext hnext).trans
    (engineStep_accept (rest := rest) (by simpa) (by simpa)), ?_⟩
  simp [Packet.opcode]

/-- Settles O10: the engine's turn runs the command, or waits. -/
theorem stepRunsLatchedCommand : Obligations.StepRunsLatchedCommand :=
  ⟨fun _ _ hbusy hd hnext => step_legal hbusy hd hnext,
    fun _ hidle hchan hnext =>
      (step_of_engineIsNext hnext).trans (engineStep_waits (by simpa) (by simpa))⟩

/-- Settles O11: the placed bits are those of the packet, and the placed entry gives the engine the
turn. -/
theorem fetchedWordRunsNext : Obligations.FetchedWordRunsNext := by
  intro s p i hd
  rw [State.withFetchWord, tablePacket_toNat, ofBits_toBits]
  exact step_legal rfl (by simpa) rfl

/-! ### The two channels (R70, R73, R86) -/

/-- The engine's turn takes nothing from the host's list. -/
theorem engineStep_host {s t : State} (h : engineStep s = .next t) : t.host = s.host := by
  rcases engineStep_cases h with ⟨-, -, rfl⟩ | ⟨p, rest, -, -, rfl⟩ | ⟨i, -, -, hexec⟩ |
    ⟨why, -, -, rfl⟩
  · rfl
  · rfl
  · obtain ⟨-, -, -, -, -, hhost, -⟩ := answered_of_exec hexec
    exact hhost
  · rfl

/-- The engine's turn leaves the waiting packets alone, or accepts the oldest (R73). -/
theorem engineStep_cmdChan {s t : State} (h : engineStep s = .next t) :
    t.cmdChan = s.cmdChan ∨
    ∃ p, s.status = .idle ∧ t.status = .busy ∧ s.cmdChan = p :: t.cmdChan ∧
      latchedPacket t = p.packet ∧ t.disturbed = p.disturbed := by
  rcases engineStep_cases h with ⟨-, -, rfl⟩ | ⟨p, rest, hidle, hchan, rfl⟩ | ⟨i, -, -, hexec⟩ |
    ⟨why, -, -, rfl⟩
  · exact .inl rfl
  · exact .inr ⟨p, hidle, rfl, hchan, latchedPacket_latchPacket .., rfl⟩
  · obtain ⟨-, -, -, -, hchan, -⟩ := answered_of_exec hexec
    exact .inl hchan
  · exact .inl rfl

/-- The engine's turn leaves the responses alone while it is `IDLE`, and answers the call while it is
`BUSY` (R86). -/
theorem engineStep_rspChan {s t : State} (h : engineStep s = .next t) :
    (s.status = .idle ∧ t.rspChan = s.rspChan) ∨
    (s.status = .busy ∧ t.status = .idle ∧
      ((∃ i, decode (latchedPacket s) = .legal i) → t.rspChan = s.rspChan ++ [responseLegal]) ∧
      ((∃ why, decode (latchedPacket s) = .illegal why) →
        t.rspChan = s.rspChan ++ [responseIllegal])) := by
  rcases engineStep_cases h with ⟨hidle, -, rfl⟩ | ⟨p, rest, hidle, -, rfl⟩ |
    ⟨i, hbusy, hlegal, hexec⟩ | ⟨why, hbusy, hillegal, rfl⟩
  · exact .inl ⟨hidle, rfl⟩
  · exact .inl ⟨hidle, rfl⟩
  · obtain ⟨hidle, hrsp, -⟩ := answered_of_exec hexec
    exact .inr ⟨hbusy, hidle, fun _ => hrsp, by simp [hlegal]⟩
  · exact .inr ⟨hbusy, rfl, by simp [hillegal], fun _ => rfl⟩

/-- What one step does to the two channels: the engine takes its turn, or the host presents a packet,
takes a response, or resets the engine; its other actions leave the packets, the responses and the
status as they are. -/
theorem step_channel_cases {s t : State} (h : step s = .next t) :
    (engineIsNext s = true ∧ engineStep (engineState s) = .next t) ∨
    (∃ p rest, s.host = .present p :: rest ∧ t = hostPresent p { s with host := rest }) ∨
    (∃ r later rest, s.host = .takeResponse :: rest ∧ s.rspChan = r :: later ∧
      t = { s with rspChan := later, host := rest }) ∨
    (∃ rest, s.host = .assertReset :: rest) ∨
    (t.cmdChan.map Presented.packet = s.cmdChan.map Presented.packet ∧ t.rspChan = s.rspChan ∧
      t.status = s.status) := by
  rcases step_cases h with hengine | hpresent | ⟨a, b, rest, -, hwrite⟩ | ⟨a, rest, -, hread⟩ |
    htake | ⟨n, rest, -, hgrow⟩ | ⟨rest, hhost, -⟩
  · exact .inl hengine
  · exact .inr (.inl hpresent)
  · obtain ⟨-, rfl⟩ := hostWrite_cases hwrite
    refine .inr (.inr (.inr (.inr ⟨?_, rfl, rfl⟩)))
    simp
  · obtain ⟨-, ⟨-, rfl⟩ | ⟨-, rfl⟩⟩ := hostRead_cases hread <;>
      exact .inr (.inr (.inr (.inr ⟨rfl, rfl, rfl⟩)))
  · exact .inr (.inr (.inl htake))
  · obtain ⟨-, -, -, rfl⟩ := hostGrow_cases hgrow
    exact .inr (.inr (.inr (.inr ⟨rfl, rfl, rfl⟩)))
  · exact .inr (.inr (.inr (.inl ⟨rest, hhost⟩)))

/-- Settles O8: only the host's `present` and the engine's acceptance change what waits. -/
theorem packetsNeverDroppedOrReordered : Obligations.PacketsNeverDroppedOrReordered := by
  refine fun s t hstep => ⟨fun p rest hhost => ?_, fun hnotPresent hnotReset => ?_⟩
  · rw [step_present hhost] at hstep
    cases hstep
    simp
  · rcases step_channel_cases hstep with ⟨hnext, hengine⟩ | ⟨p, rest, hhost, -⟩ |
      ⟨r, later, rest, -, -, rfl⟩ | ⟨rest, hhost⟩ | ⟨hpackets, -⟩
    · rcases engineStep_cmdChan hengine with hsame | ⟨p, hidle, hbusy, hchan, hlatched, -⟩
      · exact .inl (by simp [hsame])
      · rw [engineState_status] at hidle
        rw [engineState_cmdChan] at hchan
        exact .inr ⟨hnext, hidle, hbusy, by simp [hchan, hlatched]⟩
    · exact absurd hhost (hnotPresent p rest)
    · exact .inl rfl
    · exact absurd hhost (hnotReset rest)
    · exact .inl hpackets

/-- While the host waits for a response that is not there, the engine takes its turn and the wait
stays (log entry 11). -/
theorem step_waitsForResponse {s : State} {rest : List HostAction}
    (hhost : s.host = .takeResponse :: rest) (hrsp : s.rspChan = []) : step s = engineStep s := by
  rw [step, hhost]
  simp only [hrsp]

/-- Settles O58: only the host's `takeResponse` and the engine's answer change the responses. -/
theorem responsesNeverLostOrReordered : Obligations.ResponsesNeverLostOrReordered := by
  refine ⟨fun _ _ _ _ hhost hrsp => step_takeResponse hhost hrsp,
    fun s t rest hstep hhost hrsp => ?_, fun s t hstep hwait hnotReset => ?_⟩
  · rw [step_waitsForResponse hhost hrsp] at hstep
    exact engineStep_host hstep
  · rcases step_channel_cases hstep with ⟨hnext, hengine⟩ | ⟨p, rest, -, rfl⟩ |
      ⟨r, later, rest, hhost, hrsp, -⟩ | ⟨rest, hhost⟩ | ⟨-, hrsp, hstatus⟩
    · rcases engineStep_rspChan hengine with ⟨hidle, hsame⟩ | hanswered
      · rw [engineState_status] at hidle
        exact .inl ⟨by simpa using hsame, by simp [hidle]⟩
      · exact .inr ⟨hnext, by simpa [responseLegal, responseIllegal] using hanswered⟩
    · exact .inl ⟨rfl, id⟩
    · simp [hwait rest hhost] at hrsp
    · exact absurd hhost (hnotReset rest)
    · exact .inl ⟨hrsp, fun hbusy => hstatus.trans hbusy⟩

end Sys2Proof.Machine
end

section
/-!
PROOFS. The normalizer (40_normalizer.md): the division by 255.0 as one rounding of an integer quotient
(R100, R112), its error (R102, R103), and the products it is compared with (R104, R109); the lane
operations (R105, R106, R110, R111).
-/

namespace Sys2Proof.Machine

/-! ### Patterns by exponent and significand (R42) -/

/-- The pattern with sign 0, biased exponent `e` and significand `q`, as the division and the product
assemble it. A significand rounded up to 2^24 carries into the exponent. -/
def normalPattern (e q : Nat) : Word := BitVec.ofNat 32 (e * 8388608 + (q - 8388608))

theorem toNat_normalPattern {e q : Nat} (he : e ≤ 253) (hq : q ≤ 2 ^ 24) :
    (normalPattern e q).toNat = e * 8388608 + (q - 8388608) := by
  rw [normalPattern, BitVec.toNat_ofNat, Nat.mod_eq_of_lt (by omega)]

theorem normalPattern_ne_zero {e q : Nat} (h1 : 1 ≤ e) (he : e ≤ 253) (hq : q ≤ 2 ^ 24) :
    normalPattern e q ≠ 0 := by
  intro h
  have := toNat_normalPattern he hq
  have hzero : (0 : Word).toNat = 0 := rfl
  rw [h, hzero] at this
  omega

theorem binary32Exponent_eq (p : Word) : binary32Exponent p = p.toNat / 2 ^ 23 % 2 ^ 8 := by
  simp [binary32Exponent, Nat.shiftRight_eq_div_pow]

theorem binary32Fraction_eq (p : Word) : binary32Fraction p = p.toNat % 2 ^ 23 := by
  simp [binary32Fraction]

theorem signZero_iff (p : Word) : p.extractLsb' 31 1 = 0 ↔ p.toNat < 2 ^ 31 := by
  have hzero : (0 : BitVec 1).toNat = 0 := rfl
  rw [← BitVec.toNat_inj, BitVec.extractLsb'_toNat, Nat.shiftRight_eq_div_pow, hzero]
  omega

theorem binary32Exponent_normalPattern {e q : Nat} (he : e ≤ 253) (hlo : 2 ^ 23 ≤ q)
    (hhi : q < 2 ^ 24) : binary32Exponent (normalPattern e q) = e := by
  rw [binary32Exponent_eq, toNat_normalPattern he hhi.le]
  omega

theorem binary32Significand_normalPattern {e q : Nat} (he : e ≤ 253) (hlo : 2 ^ 23 ≤ q)
    (hhi : q < 2 ^ 24) : binary32Significand (normalPattern e q) = q := by
  rw [binary32Significand, binary32Fraction_eq, toNat_normalPattern he hhi.le]
  omega

/-! ### Rounding an integer quotient (R102) -/

/-- `x / u` rounded to nearest, ties to even: the rounding step of the division and of the product. -/
def roundedQuotient (x u : Nat) : Nat :=
  if u < 2 * (x % u) ∨ (2 * (x % u) = u ∧ x / u % 2 = 1) then x / u + 1 else x / u

/-- The rounded quotient is at most half a unit off. -/
theorem roundedQuotient_error {x u : Nat} (hu : 0 < u) :
    2 * (u * roundedQuotient x u) ≤ 2 * x + u ∧ 2 * x ≤ 2 * (u * roundedQuotient x u) + u := by
  have hdiv := Nat.div_add_mod x u
  have hmod := Nat.mod_lt x hu
  unfold roundedQuotient
  split
  · rw [Nat.mul_add]
    omega
  · omega

/-- A whole number less than half a unit off is the rounded quotient: there is no tie to break. -/
theorem roundedQuotient_eq_of_close {x u k : Nat} (hlo : 2 * (u * k) < 2 * x + u)
    (hhi : 2 * x < 2 * (u * k) + u) : roundedQuotient x u = k := by
  obtain ⟨hup, hdown⟩ := roundedQuotient_error (x := x) (u := u) (by omega)
  have hlt : roundedQuotient x u < k + 1 :=
    Nat.lt_of_mul_lt_mul_left (a := u) (by rw [Nat.mul_add]; omega)
  have hgt : k < roundedQuotient x u + 1 :=
    Nat.lt_of_mul_lt_mul_left (a := u) (by rw [Nat.mul_add]; omega)
  omega

/-- The division when the quotient of the significands is below 1. -/
theorem binary32Div_of_lt {a b : Word} (ha : a ≠ 0)
    (h : binary32Significand a < binary32Significand b) :
    binary32Div a b = normalPattern (binary32Exponent a + 126 - binary32Exponent b)
      (roundedQuotient (binary32Significand a * 16777216) (binary32Significand b)) := by
  simp only [binary32Div, if_neg ha, if_neg (Nat.not_le.mpr h), normalPattern, roundedQuotient]

/-- The product when the product of the significands is below 2. -/
theorem binary32Mul_of_lt {a b : Word} (ha : a ≠ 0)
    (h : binary32Significand a * binary32Significand b < 2 ^ 47) :
    binary32Mul a b = normalPattern (binary32Exponent a + binary32Exponent b - 127)
      (roundedQuotient (binary32Significand a * binary32Significand b) (2 ^ 23)) := by
  simp only [binary32Mul, if_neg ha, if_pos h, normalPattern, roundedQuotient]

/-- The product when the product of the significands is 2 or more. -/
theorem binary32Mul_of_le {a b : Word} (ha : a ≠ 0)
    (h : 2 ^ 47 ≤ binary32Significand a * binary32Significand b) :
    binary32Mul a b = normalPattern (binary32Exponent a + binary32Exponent b - 126)
      (roundedQuotient (binary32Significand a * binary32Significand b) (2 ^ 24)) := by
  simp only [binary32Mul, if_neg ha, if_neg (Nat.not_lt.mpr h), normalPattern, roundedQuotient]

/-- `nearestNat` of a normal pattern is the whole number less than half a unit off. -/
theorem nearestNat_eq_of_close {p : Word} {factor k : Nat} (hp : p ≠ 0)
    (hlo : 2 * (k * 2 ^ (150 - binary32Exponent p)) ≤
      2 * (binary32Significand p * factor) + 2 ^ (150 - binary32Exponent p))
    (hhi : 2 * (binary32Significand p * factor) <
      2 * (k * 2 ^ (150 - binary32Exponent p)) + 2 ^ (150 - binary32Exponent p)) :
    nearestNat p factor = k := by
  rw [nearestNat, if_neg hp]
  refine Nat.div_eq_of_lt_le ?_ ?_
  · rw [Nat.mul_left_comm k]
    exact hlo
  · rw [Nat.mul_left_comm (k + 1), Nat.add_mul]
    omega

/-! ### A byte in binary32 (R101) -/

/-- The significand of the binary32 number equal to `n`. -/
def natSignificand (n : Nat) : Nat := n * 2 ^ (23 - n.log2)

theorem binary32OfNat_eq {n : Nat} (hn : n ≠ 0) :
    binary32OfNat n = normalPattern (127 + n.log2) (natSignificand n) := by
  simp only [binary32OfNat, if_neg hn, normalPattern, natSignificand]

section
variable {n : Nat}

theorem log2_le_seven (h0 : n ≠ 0) (h : n ≤ 255) : n.log2 ≤ 7 :=
  Nat.le_of_lt_succ ((Nat.log2_lt h0).mpr (by omega))

theorem le_natSignificand (h0 : n ≠ 0) (h : n ≤ 255) : 2 ^ 23 ≤ natSignificand n := by
  have hL := log2_le_seven h0 h
  calc 2 ^ 23 = 2 ^ n.log2 * 2 ^ (23 - n.log2) := by rw [← pow_add, Nat.add_sub_of_le (by omega)]
    _ ≤ natSignificand n := Nat.mul_le_mul_right _ (Nat.log2_self_le h0)

/-- The significand of 255.0 is the largest of a byte: all its eight bits are ones. -/
theorem natSignificand_lt_divisor (h0 : n ≠ 0) (h : n ≤ 254) : natSignificand n < 255 * 2 ^ 16 := by
  have hL := log2_le_seven h0 (by omega)
  have hhi := Nat.lt_log2_self (n := n)
  unfold natSignificand
  generalize n.log2 = L at *
  interval_cases L <;> omega

theorem natSignificand_lt (h0 : n ≠ 0) (h : n ≤ 255) : natSignificand n < 2 ^ 24 := by
  rcases h.lt_or_eq with hlt | rfl
  · have := natSignificand_lt_divisor h0 (Nat.le_of_lt_succ hlt)
    omega
  · decide

theorem binary32OfNat_ne_zero (h0 : n ≠ 0) (h : n ≤ 255) : binary32OfNat n ≠ 0 := by
  have := log2_le_seven h0 h
  rw [binary32OfNat_eq h0]
  exact normalPattern_ne_zero (by omega) (by omega) (natSignificand_lt h0 h).le

theorem binary32Exponent_ofNat (h0 : n ≠ 0) (h : n ≤ 255) :
    binary32Exponent (binary32OfNat n) = 127 + n.log2 := by
  have := log2_le_seven h0 h
  rw [binary32OfNat_eq h0, binary32Exponent_normalPattern (by omega) (le_natSignificand h0 h)
    (natSignificand_lt h0 h)]

theorem binary32Significand_ofNat (h0 : n ≠ 0) (h : n ≤ 255) :
    binary32Significand (binary32OfNat n) = natSignificand n := by
  have := log2_le_seven h0 h
  rw [binary32OfNat_eq h0, binary32Significand_normalPattern (by omega)
    (le_natSignificand h0 h) (natSignificand_lt h0 h)]

/-- R101: the conversion is exact. -/
theorem nearestNat_binary32OfNat (h : n ≤ 255) : nearestNat (binary32OfNat n) 1 = n := by
  rcases eq_or_ne n 0 with rfl | h0
  · rfl
  · have hL := log2_le_seven h0 h
    have hscale : 150 - (127 + n.log2) = 23 - n.log2 := by omega
    have hpos : 0 < 2 ^ (23 - n.log2) := Nat.two_pow_pos _
    apply nearestNat_eq_of_close (binary32OfNat_ne_zero h0 h) <;>
      rw [binary32Exponent_ofNat h0 h, binary32Significand_ofNat h0 h, hscale, natSignificand] <;>
      omega

/-! ### The division by 255.0 is the formula of R112 -/

/-- The scaled byte of R112. -/
theorem scaled_eq (h0 : n ≠ 0) (h : n ≤ 255) :
    n * 2 ^ (32 - (n.log2 + 1)) = 256 * natSignificand n := by
  have hL := log2_le_seven h0 h
  rw [natSignificand, show 32 - (n.log2 + 1) = 8 + (23 - n.log2) by omega, pow_add]
  ring

/-- `q'` of R112 is the integer nearest to the scaled byte divided by 255: 255 being odd, the remainder
left is at most 127. -/
theorem formulaSignificand_error (h0 : n ≠ 0) (h : n ≤ 255) :
    255 * formulaSignificand n ≤ 256 * natSignificand n + 127 ∧
      256 * natSignificand n ≤ 255 * formulaSignificand n + 127 := by
  simp only [formulaSignificand, scaled_eq h0 h]
  split <;> omega

theorem lt_formulaSignificand (h0 : n ≠ 0) (h : n ≤ 255) : 2 ^ 23 < formulaSignificand n := by
  have := formulaSignificand_error h0 h
  have := le_natSignificand h0 h
  omega

theorem formulaSignificand_lt (h0 : n ≠ 0) (h : n ≤ 254) : formulaSignificand n < 2 ^ 24 := by
  have := formulaSignificand_error h0 (by omega)
  have := natSignificand_lt_divisor h0 h
  omega

/-- 2^24 is reached, by 255. -/
theorem formulaSignificand_le (h0 : n ≠ 0) (h : n ≤ 255) : formulaSignificand n ≤ 2 ^ 24 := by
  rcases h.lt_or_eq with hlt | rfl
  · exact (formulaSignificand_lt h0 (Nat.le_of_lt_succ hlt)).le
  · decide

end

theorem binary32Exponent_divisor255 : binary32Exponent divisor255 = 134 := rfl
theorem binary32Significand_divisor255 : binary32Significand divisor255 = 255 * 2 ^ 16 := rfl

theorem normByte_eq_div (b : Byte) : normByte b = binary32Div (binary32OfNat b.toNat) divisor255 := by
  have : (widenByte b).toNat = b.toNat := by simp [widenByte]; omega
  rw [normByte, this]

theorem byte_le_255 (b : Byte) : b.toNat ≤ 255 := by omega

/-- The two ends of the table and the bytes between them, where the quotient lies between 0 and 1. -/
theorem byte_cases (b : Byte) : b = 0 ∨ b = 255 ∨ (b.toNat ≠ 0 ∧ b.toNat ≤ 254) := by bv_omega

theorem byte_eq_zero_or (b : Byte) : b = 0 ∨ b.toNat ≠ 0 := by bv_omega

/-- `norm(255)`: the formula's significand is 2^24, which carries into the exponent. -/
theorem normByte_255 : normByte 255 =
    normalPattern (119 + Nat.log2 255) (formulaSignificand 255) := by decide

/-- R112: the division has one result for all bytes but 0, the exponent and significand of the
formula. -/
theorem normByte_eq {b : Byte} (h0 : b.toNat ≠ 0) :
    normByte b = normalPattern (119 + b.toNat.log2) (formulaSignificand b.toNat) := by
  rcases byte_cases b with rfl | rfl | ⟨-, h⟩
  · exact absurd rfl h0
  · exact normByte_255
  · have h255 := byte_le_255 b
    have herr := formulaSignificand_error h0 h255
    have hround : roundedQuotient (natSignificand b.toNat * 16777216) (255 * 2 ^ 16) =
        formulaSignificand b.toNat := roundedQuotient_eq_of_close (by omega) (by omega)
    have hexp : 127 + b.toNat.log2 + 126 - 134 = 119 + b.toNat.log2 := by omega
    have hlt : binary32Significand (binary32OfNat b.toNat) < binary32Significand divisor255 := by
      rw [binary32Significand_ofNat h0 h255, binary32Significand_divisor255]
      exact natSignificand_lt_divisor h0 h
    rw [normByte_eq_div, binary32Div_of_lt (binary32OfNat_ne_zero h0 h255) hlt,
      binary32Exponent_ofNat h0 h255, binary32Significand_ofNat h0 h255,
      binary32Exponent_divisor255, binary32Significand_divisor255, hround, hexp]

theorem toNat_normByte {b : Byte} (h0 : b.toNat ≠ 0) : (normByte b).toNat =
    (119 + b.toNat.log2) * 8388608 + (formulaSignificand b.toNat - 8388608) := by
  have hL := log2_le_seven h0 (byte_le_255 b)
  rw [normByte_eq h0,
    toNat_normalPattern (by omega) (formulaSignificand_le h0 (byte_le_255 b))]

theorem normByte_ne_zero {b : Byte} (h0 : b.toNat ≠ 0) : normByte b ≠ 0 := by
  have hL := log2_le_seven h0 (byte_le_255 b)
  rw [normByte_eq h0]
  exact normalPattern_ne_zero (by omega) (by omega) (formulaSignificand_le h0 (byte_le_255 b))

theorem binary32Exponent_normByte {b : Byte} (h0 : b.toNat ≠ 0) (h : b.toNat ≤ 254) :
    binary32Exponent (normByte b) = 119 + b.toNat.log2 := by
  have hL := log2_le_seven h0 (byte_le_255 b)
  rw [normByte_eq h0, binary32Exponent_normalPattern (by omega)
    (lt_formulaSignificand h0 (byte_le_255 b)).le (formulaSignificand_lt h0 h)]

theorem binary32Significand_normByte {b : Byte} (h0 : b.toNat ≠ 0) (h : b.toNat ≤ 254) :
    binary32Significand (normByte b) = formulaSignificand b.toNat := by
  have hL := log2_le_seven h0 (byte_le_255 b)
  rw [normByte_eq h0, binary32Significand_normalPattern (by omega)
    (lt_formulaSignificand h0 (byte_le_255 b)).le (formulaSignificand_lt h0 h)]

/-- Settles O18: `normByte_eq` as a number, and the bounds of the formula's significand. -/
theorem normAgreesWithIntegerFormula : Obligations.NormAgreesWithIntegerFormula := by
  refine ⟨fun b => ?_, fun b h1 h => ?_⟩
  · rcases byte_cases b with rfl | rfl | ⟨h0, h⟩
    · decide
    · decide
    · rw [toNat_normByte h0, normByFormula, if_neg h0, if_neg (by omega)]
      omega
  · have h0 : b ≠ 0 := by omega
    exact ⟨(lt_formulaSignificand h0 (by omega)).le, formulaSignificand_lt h0 h⟩

/-! ### Values and distances (R102) -/

/-- `binary32Scaled` as a function of the pattern's number. -/
def patternScaled (k : Nat) : Nat :=
  if k / 2 ^ 23 = 0 then 2 * (k % 2 ^ 23) else (8388608 + k % 2 ^ 23) * 2 ^ (k / 2 ^ 23)

theorem binary32Scaled_eq {p : Word} (h : p.toNat < 2 ^ 31) :
    binary32Scaled p = patternScaled p.toNat := by
  have hexp : p.toNat / 2 ^ 23 % 2 ^ 8 = p.toNat / 2 ^ 23 := Nat.mod_eq_of_lt (by omega)
  rw [binary32Scaled, binary32Significand, binary32Exponent_eq, binary32Fraction_eq, hexp,
    patternScaled]

/-- The next pattern is one unit in the last place further, also into the next exponent. -/
theorem patternScaled_succ (k : Nat) :
    patternScaled (k + 1) = patternScaled k + 2 ^ max 1 (k / 2 ^ 23) := by
  obtain ⟨e, f, hf, rfl⟩ : ∃ e f, f < 2 ^ 23 ∧ k = 2 ^ 23 * e + f :=
    ⟨k / 2 ^ 23, k % 2 ^ 23, Nat.mod_lt _ (by decide), (Nat.div_add_mod _ _).symm⟩
  have hdiv : (2 ^ 23 * e + f) / 2 ^ 23 = e := by omega
  have hmod : (2 ^ 23 * e + f) % 2 ^ 23 = f := by omega
  rcases Nat.lt_or_ge (f + 1) (2 ^ 23) with hin | hcarry
  · have hdiv' : (2 ^ 23 * e + f + 1) / 2 ^ 23 = e := by omega
    have hmod' : (2 ^ 23 * e + f + 1) % 2 ^ 23 = f + 1 := by omega
    rw [patternScaled, patternScaled, hdiv, hmod, hdiv', hmod']
    rcases Nat.eq_zero_or_pos e with rfl | he
    · simp
      omega
    · rw [if_neg he.ne', if_neg he.ne', max_eq_right he]
      ring
  · obtain rfl : f = 2 ^ 23 - 1 := by omega
    have hdiv' : (2 ^ 23 * e + (2 ^ 23 - 1) + 1) / 2 ^ 23 = e + 1 := by omega
    have hmod' : (2 ^ 23 * e + (2 ^ 23 - 1) + 1) % 2 ^ 23 = 0 := by omega
    rw [patternScaled, patternScaled, hdiv, hmod, hdiv', hmod']
    rcases Nat.eq_zero_or_pos e with rfl | he
    · rfl
    · rw [if_neg (by omega), if_neg he.ne', max_eq_right he, pow_succ]
      ring

theorem patternScaled_strictMono : StrictMono patternScaled :=
  strictMono_nat_of_lt_succ fun k => by
    have := Nat.two_pow_pos (max 1 (k / 2 ^ 23))
    rw [patternScaled_succ]
    omega

/-- The value of a normal pattern, also when the significand is 2^24 and carries. -/
theorem patternScaled_normal {e q : Nat} (he : 1 ≤ e) (hlo : 2 ^ 23 ≤ q) (hhi : q ≤ 2 ^ 24) :
    patternScaled (e * 8388608 + (q - 8388608)) = q * 2 ^ e := by
  rcases hhi.lt_or_eq with hlt | rfl
  · have hdiv : (e * 8388608 + (q - 8388608)) / 2 ^ 23 = e := by omega
    have hmod : 8388608 + (e * 8388608 + (q - 8388608)) % 2 ^ 23 = q := by omega
    rw [patternScaled, hdiv, hmod, if_neg (by omega)]
  · have hdiv : (e * 8388608 + (2 ^ 24 - 8388608)) / 2 ^ 23 = e + 1 := by omega
    have hmod : (e * 8388608 + (2 ^ 24 - 8388608)) % 2 ^ 23 = 0 := by omega
    rw [patternScaled, hdiv, hmod, if_neg (by omega), pow_succ]
    ring

theorem toNat_normByte_lt (b : Byte) : (normByte b).toNat < 2 ^ 30 := by
  rcases byte_eq_zero_or b with rfl | h0
  · decide
  · have hL := log2_le_seven h0 (byte_le_255 b)
    have hsig := formulaSignificand_le h0 (byte_le_255 b)
    rw [toNat_normByte h0]
    omega

theorem binary32Scaled_normByte_eq (b : Byte) :
    binary32Scaled (normByte b) = patternScaled (normByte b).toNat :=
  binary32Scaled_eq (by have := toNat_normByte_lt b; omega)

theorem binary32Scaled_normByte {b : Byte} (h0 : b.toNat ≠ 0) :
    binary32Scaled (normByte b) = formulaSignificand b.toNat * 2 ^ (119 + b.toNat.log2) := by
  have hlo := lt_formulaSignificand h0 (byte_le_255 b)
  have hhi := formulaSignificand_le h0 (byte_le_255 b)
  rw [binary32Scaled_normByte_eq, toNat_normByte h0, patternScaled_normal (by omega) hlo.le hhi]

/-- The byte at the scale of the distance. -/
theorem scaledByte_eq {n : Nat} (h0 : n ≠ 0) (h : n ≤ 255) :
    n * 2 ^ 150 = 256 * natSignificand n * 2 ^ (119 + n.log2) := by
  have hL := log2_le_seven h0 h
  rw [← scaled_eq h0 h, Nat.mul_assoc, ← pow_add,
    show 32 - (n.log2 + 1) + (119 + n.log2) = 150 by omega]

/-- R102: `norm(b)` is less than half a unit in the last place off: 127 parts of 255 at most. -/
theorem scaled_normByte_error {b : Byte} (h0 : b.toNat ≠ 0) :
    binary32Scaled (normByte b) * 255 ≤ b.toNat * 2 ^ 150 + 127 * 2 ^ (119 + b.toNat.log2) ∧
      b.toNat * 2 ^ 150 ≤ binary32Scaled (normByte b) * 255 + 127 * 2 ^ (119 + b.toNat.log2) := by
  obtain ⟨hup, hdown⟩ := formulaSignificand_error h0 (byte_le_255 b)
  rw [binary32Scaled_normByte h0, scaledByte_eq h0 (byte_le_255 b), Nat.mul_right_comm, ← Nat.add_mul,
    ← Nat.add_mul]
  exact ⟨Nat.mul_le_mul_right _ (by omega), Nat.mul_le_mul_right _ (by omega)⟩

/-- The neighbours of `norm(b)` are a unit in the last place away, and all other patterns farther. -/
theorem patternScaled_apart {b : Byte} (h0 : b.toNat ≠ 0) {k : Nat} (hk : k ≠ (normByte b).toNat) :
    patternScaled k + 2 ^ (119 + b.toNat.log2) ≤ binary32Scaled (normByte b) ∨
      binary32Scaled (normByte b) + 2 ^ (119 + b.toNat.log2) ≤ patternScaled k := by
  have hlo := lt_formulaSignificand h0 (byte_le_255 b)
  have hhi := formulaSignificand_le h0 (byte_le_255 b)
  have hn := toNat_normByte h0
  rcases Nat.lt_or_gt_of_ne hk with hlt | hgt
  · have hle : k ≤ (119 + b.toNat.log2) * 8388608 + (formulaSignificand b.toNat - 1 - 8388608) := by
      omega
    have hmono := patternScaled_strictMono.monotone hle
    rw [patternScaled_normal (by omega) (by omega) (by omega), Nat.sub_mul] at hmono
    have hpos : 1 * 2 ^ (119 + b.toNat.log2) ≤
        formulaSignificand b.toNat * 2 ^ (119 + b.toNat.log2) := Nat.mul_le_mul_right _ (by omega)
    rw [binary32Scaled_normByte h0]
    omega
  · have hmono := patternScaled_strictMono.monotone (Nat.succ_le_of_lt hgt)
    have hexp : 2 ^ (119 + b.toNat.log2) ≤ 2 ^ max 1 ((normByte b).toNat / 2 ^ 23) :=
      Nat.pow_le_pow_right (by decide) (le_max_of_le_right (by omega))
    rw [Nat.succ_eq_add_one, patternScaled_succ] at hmono
    rw [binary32Scaled_normByte_eq]
    omega

theorem distanceFromQuotient_zero (p : Word) :
    distanceFromQuotient p 0 = binary32Scaled p * 255 := by
  have hzero : (0 : Byte).toNat = 0 := rfl
  rw [distanceFromQuotient, hzero]
  omega

/-- Settles O17: `norm(b)` is less than half a unit off, and every other pattern is at least a unit away
from it. -/
theorem normIsNearestBinary32 : Obligations.NormIsNearestBinary32 := by
  intro b
  have hlt := toNat_normByte_lt b
  refine ⟨(signZero_iff _).mpr (by omega), ?_, fun p hsign _ hne => ?_⟩
  · rw [binary32Exponent_eq]
    omega
  have hp := binary32Scaled_eq ((signZero_iff p).mp hsign)
  have hk : p.toNat ≠ (normByte b).toNat := fun h => hne (BitVec.toNat_inj.mp h)
  rcases byte_eq_zero_or b with rfl | h0
  · have hpos : patternScaled (normByte 0).toNat < patternScaled p.toNat :=
      patternScaled_strictMono (Nat.pos_of_ne_zero hk)
    rw [distanceFromQuotient_zero, distanceFromQuotient_zero, binary32Scaled_normByte_eq, hp]
    exact Nat.mul_lt_mul_of_pos_right hpos (by decide)
  · obtain ⟨hup, hdown⟩ := scaled_normByte_error h0
    have hapart := patternScaled_apart h0 hk
    have hpos := Nat.two_pow_pos (119 + b.toNat.log2)
    rw [distanceFromQuotient, distanceFromQuotient, hp]
    omega

/-! ### The table increases (R103) -/

/-- In the distance's scale one byte is 2^150, and no result is off by as much as 2^133. -/
theorem scaled_normByte_close (b : Byte) :
    binary32Scaled (normByte b) * 255 < b.toNat * 2 ^ 150 + 2 ^ 133 ∧
      b.toNat * 2 ^ 150 < binary32Scaled (normByte b) * 255 + 2 ^ 133 := by
  rcases byte_eq_zero_or b with rfl | h0
  · decide
  · obtain ⟨hup, hdown⟩ := scaled_normByte_error h0
    have hL := log2_le_seven h0 (byte_le_255 b)
    have hunit : 2 ^ (119 + b.toNat.log2) ≤ 2 ^ 126 := Nat.pow_le_pow_right (by decide) (by omega)
    omega

theorem binary32Scaled_normByte_lt {a b : Byte} (h : a.toNat < b.toNat) :
    binary32Scaled (normByte a) < binary32Scaled (normByte b) := by
  obtain ⟨hup, -⟩ := scaled_normByte_close a
  obtain ⟨-, hdown⟩ := scaled_normByte_close b
  omega

theorem toNat_normByte_strictMono {a b : Byte} (h : a.toNat < b.toNat) :
    (normByte a).toNat < (normByte b).toNat := by
  have := binary32Scaled_normByte_lt h
  rw [binary32Scaled_normByte_eq, binary32Scaled_normByte_eq] at this
  exact patternScaled_strictMono.lt_iff_lt.mp this

/-- Settles O19: neighbouring bytes are farther apart than the errors of their results. -/
theorem normIsIncreasingInUnitInterval : Obligations.NormIsIncreasingInUnitInterval := by
  refine ⟨by decide, by decide, by decide, by decide,
    fun a b h => ⟨toNat_normByte_strictMono h, binary32Scaled_normByte_lt h⟩, fun b => ?_⟩
  have hlt := toNat_normByte_lt b
  have hone : normByte 255 = 0x3F800000 := by decide
  refine ⟨(signZero_iff _).mpr (by omega), ?_, fun hne => ?_⟩
  · rw [← hone]
    rcases (byte_le_255 b).lt_or_eq with h | h
    · exact (binary32Scaled_normByte_lt (b := 255) h).le
    · rw [BitVec.toNat_inj.mp (show b.toNat = (255 : Byte).toNat from h)]
  · have h0 := (byte_eq_zero_or b).resolve_left hne
    have hL := log2_le_seven h0 (byte_le_255 b)
    have hlo := lt_formulaSignificand h0 (byte_le_255 b)
    have hhi := formulaSignificand_le h0 (byte_le_255 b)
    have hn := toNat_normByte h0
    rw [binary32Exponent_eq]
    refine ⟨by omega, by omega, ?_⟩
    rcases (show 1 ≤ b.toNat by omega).lt_or_eq with h | h
    · exact (toNat_normByte_strictMono (a := 1) h).le
    · rw [BitVec.toNat_inj.mp (show (1 : Byte).toNat = b.toNat from h)]

/-! ### The product with 255.0 (R109) -/

/-- The binary32 product of `norm(b)` and 255.0 is the byte itself: the significand of `norm(b)` is at
most 127 parts of 255 off, which the product's rounding step removes. -/
theorem binary32Mul_normByte_divisor255 (b : Byte) :
    binary32Mul (normByte b) divisor255 = binary32OfNat b.toNat := by
  rcases byte_cases b with rfl | rfl | ⟨h0, h⟩
  · decide
  · decide
  · have h255 := byte_le_255 b
    have hlo := le_natSignificand h0 h255
    have herr := formulaSignificand_error h0 h255
    have hround : roundedQuotient (formulaSignificand b.toNat * (255 * 2 ^ 16)) (2 ^ 24) =
        natSignificand b.toNat := roundedQuotient_eq_of_close (by omega) (by omega)
    have hexp : 119 + b.toNat.log2 + 134 - 126 = 127 + b.toNat.log2 := by omega
    have hle : 2 ^ 47 ≤ binary32Significand (normByte b) * binary32Significand divisor255 := by
      rw [binary32Significand_normByte h0 h, binary32Significand_divisor255]
      omega
    rw [binary32Mul_of_le (normByte_ne_zero h0) hle, binary32Exponent_normByte h0 h,
      binary32Significand_normByte h0 h, binary32Exponent_divisor255,
      binary32Significand_divisor255, hround, hexp, binary32OfNat_eq h0]

/-- The exact product of `norm(b)` and 255 is nearest to the byte. -/
theorem nearestNat_normByte (b : Byte) : nearestNat (normByte b) 255 = b.toNat := by
  rcases byte_cases b with rfl | rfl | ⟨h0, h⟩
  · decide
  · decide
  · have h255 := byte_le_255 b
    have hL := log2_le_seven h0 h255
    have herr := formulaSignificand_error h0 h255
    rw [← scaled_eq h0 h255] at herr
    have hscale : 150 - (119 + b.toNat.log2) = 32 - (b.toNat.log2 + 1) := by omega
    have hunit : 2 ^ 24 ≤ 2 ^ (32 - (b.toNat.log2 + 1)) :=
      Nat.pow_le_pow_right (by decide) (by omega)
    apply nearestNat_eq_of_close (normByte_ne_zero h0) <;>
      rw [binary32Exponent_normByte h0 h, binary32Significand_normByte h0 h, hscale] <;>
      omega

/-- Settles O21: the exact product is nearest to the byte, and the binary32 product is the byte. -/
theorem normLeftInverse : Obligations.NormLeftInverse := fun b =>
  ⟨nearestNat_normByte b, by
    rw [binary32Mul_normByte_divisor255, nearestNat_binary32OfNat (byte_le_255 b)]⟩

/-! ### The product with the reciprocal (R104) -/

theorem binary32Exponent_reciprocal255 : binary32Exponent reciprocal255 = 119 := rfl
theorem binary32Significand_reciprocal255 : binary32Significand reciprocal255 = 8421505 := rfl

/-- R104: with the significand of the reciprocal, 255 * 8421505 = 2^31 + 127, a product is less than one
unit in the last place above the quotient before it is rounded. -/
theorem roundedProduct_cases {n : Nat} (h0 : n ≠ 0) (h : n ≤ 255) :
    roundedQuotient (natSignificand n * 8421505) (2 ^ 23) = formulaSignificand n ∨
      roundedQuotient (natSignificand n * 8421505) (2 ^ 23) = formulaSignificand n + 1 := by
  have hhi := natSignificand_lt h0 h
  have herr := formulaSignificand_error h0 h
  have hround := roundedQuotient_error (x := natSignificand n * 8421505) (u := 2 ^ 23) (by decide)
  omega

theorem binary32Mul_reciprocal255_eq {b : Byte} (h0 : b.toNat ≠ 0) (h : b.toNat ≤ 254) :
    binary32Mul (binary32OfNat b.toNat) reciprocal255 = normalPattern (119 + b.toNat.log2)
      (roundedQuotient (natSignificand b.toNat * 8421505) (2 ^ 23)) := by
  have h255 := byte_le_255 b
  have hexp : 127 + b.toNat.log2 + 119 - 127 = 119 + b.toNat.log2 := by omega
  have hlt : binary32Significand (binary32OfNat b.toNat) * binary32Significand reciprocal255 <
      2 ^ 47 := by
    rw [binary32Significand_ofNat h0 h255, binary32Significand_reciprocal255]
    have := natSignificand_lt_divisor h0 h
    omega
  rw [binary32Mul_of_lt (binary32OfNat_ne_zero h0 h255) hlt, binary32Exponent_ofNat h0 h255,
    binary32Significand_ofNat h0 h255, binary32Exponent_reciprocal255,
    binary32Significand_reciprocal255, hexp]

/-- R104: the product is the quotient's pattern or the next one. -/
theorem binary32Mul_reciprocal255_cases (b : Byte) :
    binary32Mul (binary32OfNat b.toNat) reciprocal255 = normByte b ∨
      (binary32Mul (binary32OfNat b.toNat) reciprocal255).toNat = (normByte b).toNat + 1 := by
  rcases byte_cases b with rfl | rfl | ⟨h0, h⟩
  · decide
  · decide
  · have hL := log2_le_seven h0 (byte_le_255 b)
    have hlo := lt_formulaSignificand h0 (byte_le_255 b)
    have hhi := formulaSignificand_lt h0 h
    rw [binary32Mul_reciprocal255_eq h0 h]
    rcases roundedProduct_cases h0 (byte_le_255 b) with hsame | hnext
    · rw [hsame, normByte_eq h0]
      exact .inl rfl
    · rw [hnext, toNat_normalPattern (by omega) (by omega), toNat_normByte h0]
      exact .inr (by omega)

/-- The constant of R104 is `norm(1)`. -/
theorem normByte_one : normByte 1 = reciprocal255 := by decide

/-- The bytes whose product with the reciprocal is another pattern than the quotient. -/
def reciprocalMisses : List Nat := (List.range 256).filter fun b =>
  binary32Mul (binary32OfNat b) reciprocal255 ≠ normByte (BitVec.ofNat 8 b)

theorem length_reciprocalMisses : reciprocalMisses.length = 126 := by decide +kernel

theorem take_reciprocalMisses : reciprocalMisses.take 7 = [3, 6, 7, 12, 13, 14, 15] := by
  decide +kernel

/-- Settles O20: the constant is `norm(1)`, so it is nearest to 1/255 as O17 says; the misses are
counted, and each is the one unit of `binary32Mul_reciprocal255_cases`. -/
theorem normIsNotReciprocalProduct : Obligations.NormIsNotReciprocalProduct := by
  refine ⟨fun p hsign hfinite hne => ?_, length_reciprocalMisses, take_reciprocalMisses, fun b => ?_⟩
  · rw [← normByte_one] at hne ⊢
    exact (normIsNearestBinary32 1).2.2 p hsign hfinite hne
  · exact (binary32Mul_reciprocal255_cases b).imp_right .inl

/-! ### Batches and lanes (R105, R106, R110, R111) -/

theorem normalizeBatch_append (xs ys : List Byte) :
    normalizeBatch (xs ++ ys) = normalizeBatch xs ++ normalizeBatch ys :=
  List.map_append

theorem getElem?_normalizeBatch {xs : List Byte} {k : Nat} (h : k < xs.length) :
    (normalizeBatch xs)[k]? = some (normByte xs[k]) := by
  rw [normalizeBatch, List.getElem?_map, List.getElem?_eq_getElem h, Option.map_some]

/-- Settles O22: a batch is a map over its samples, and the lane operations keep the order. -/
theorem laneOperations : Obligations.LaneOperations :=
  ⟨normalizeBatch_append, fun _ _ h => getElem?_normalizeBatch h, fun _ _ _ _ => rfl,
    fun _ _ _ _ => ⟨rfl, rfl⟩⟩

end Sys2Proof.Machine
end

section
/-!
PROOFS. The Y plane (41_y_plane.md): the result of `Y_TO_HW` (R120), the first plane of the CHW commands
(R123), and one command against two at adjacent offsets (R124).
-/

namespace Sys2Proof.Machine

/-! ### The result of `Y_TO_HW` (R120) -/

/-- The result of a command agrees with the region at acceptance outside the output range (R53). -/
theorem sameOutside_commandResult {i : Instr} {m : Memory} (hshape : pShape i = true)
    (hm : m.wf = true) : SameOutside (outSpan i).lo (outSpan i).hi m (commandResult i m) :=
  fun a ha => (read_commandResult hshape hm a).trans (if_neg (by rw [spanHas_iff]; omega))

theorem readFloat_convertSamples {m : Memory} (hm : m.wf = true) (frame : Memory) (src dst : Nat)
    {n k : Nat} (hk : k < n) :
    readFloat (convertSamples frame src dst n m) (dst + 4 * k) = normByte (frame.read (src + k)) :=
  readFloat_of_paints (paints_convertSamples_normalized fun _ _ => rfl) hm hk

/-- Settles O23: the call is `OK`, and its result is what the Y-plane converter paints. -/
theorem yToHwResult : Obligations.YToHwResult := by
  intro s src dst n hm hs hmod hpos hsrc hdst hdisj
  obtain ⟨hY, -⟩ := outcomeOkExactlyWhen s hs
  have hok := (hY src dst n).2 ⟨hmod, hpos, hsrc, hdst, hdisj⟩
  exact ⟨_, exec_of_callOk hok, answered_deliverResponse responseLegal s,
    fun _ hk => readFloat_convertSamples hm s.mem src dst hk,
    sameOutside_commandResult (i := .yToHw src dst n) (decide_eq_true hmod) hm⟩

/-! ### The first plane of the CHW commands (R123) -/

/-- Two transformers with the same picture agree wherever both paint. -/
theorem paints_agree {Q Q' : Nat → Prop} {f : Nat → Byte} {T T' : Memory → Memory}
    (h : Paints Q f T) (h' : Paints Q' f T') {m : Memory} (hm : m.wf = true) {a : Nat} (ha : Q a)
    (ha' : Q' a) : (T m).read a = (T' m).read a :=
  (((h m hm).2 a).1 ha).trans (((h' m hm).2 a).1 ha').symm

/-- What paints the three planes of a tensor leaves in the first one what a Y-plane converter leaves
there, if the first plane's samples lie one behind the other. -/
theorem sameInside_firstPlane {m frame : Memory} {src d w h : Nat}
    {source : Nat → Nat → Nat → Nat} {T : Memory → Memory} (hm : m.wf = true)
    (hsource : ∀ j i, source 0 j i = src + (j * w + i))
    (hT : Paints (tensorAddr d fun k => k < 3 * (w * h))
      (normalizedByte frame d (chwSource w h source)) T) :
    SameInside d (d + 4 * (w * h)) (convertSamples frame src d (w * h) m) (T m) :=
  have hY := paints_convertSamples_normalized (d := d) fun _ => chwSource_firstPlane (h := h) hsource
  fun _ hlo hhi => paints_agree hT hY hm ⟨hlo, by omega⟩ ⟨hlo, by omega⟩

/-- The ranges of an `OK` CHW call hold those of `Y_TO_HW` on its Y plane. -/
theorem callOk_yToHw_firstPlane {s : State} {src dst w h : Nat} (hs : s.disturbed = false)
    (hmod : w % 4 = 0) (hw : 1 ≤ w) (hh : 1 ≤ h)
    (hsrc : src + w * h + w * h / 2 ≤ s.memSize) (hdst : dst + 12 * (w * h) ≤ s.memSize)
    (hdisj : src + w * h + w * h / 2 ≤ dst ∨ dst + 12 * (w * h) ≤ src) :
    callOk (.yToHw src dst (w * h)) s = true := by
  obtain ⟨hY, -⟩ := outcomeOkExactlyWhen s hs
  have harea : w * h % 4 = 0 := Nat.mod_eq_zero_of_dvd ((Nat.dvd_of_mod_eq_zero hmod).mul_right h)
  have hpos : 1 ≤ w * h := Nat.mul_pos hw hh
  exact (hY src dst (w * h)).2 ⟨harea, hpos, by omega, by omega, by omega⟩

/-- Settles O36: the Y plane of either command paints the bytes that the Y-plane converter paints, and
the chroma planes lie behind it. -/
theorem chwFirstPlaneIsYToHw : Obligations.ChwFirstPlaneIsYToHw := by
  intro s src dst w h hm
  constructor
  · intro hok
    have hs := ((callOk_iff _ s).1 hok).2
    obtain ⟨-, hNv12, -⟩ := outcomeOkExactlyWhen s hs
    obtain ⟨hmod, heven, hw, hh, hsrc, hdst, hdisj⟩ := (hNv12 src dst w h).1 hok
    exact ⟨_, _, exec_of_callOk hok,
      exec_of_callOk (callOk_yToHw_firstPlane hs hmod hw hh hsrc hdst hdisj),
      sameInside_firstPlane hm (fun _ _ => rfl) (paints_nv12Frame (by omega) heven)⟩
  · intro hok
    have hs := ((callOk_iff _ s).1 hok).2
    obtain ⟨-, -, hI420, -⟩ := outcomeOkExactlyWhen s hs
    obtain ⟨hmod, heven, hw, hh, hsrc, hdst, hdisj⟩ := (hI420 src dst w h).1 hok
    exact ⟨_, _, exec_of_callOk hok,
      exec_of_callOk (callOk_yToHw_firstPlane hs (by omega) hw hh hsrc hdst hdisj),
      sameInside_firstPlane hm (fun _ _ => rfl) (paints_i420Frame (by omega) heven)⟩

/-! ### One command and two at adjacent offsets (R124) -/

/-- A loop of `n + k` rounds is one of `n` rounds and then one of the `k` rounds from `n` on. -/
theorem forUpTo_add (n k : Nat) (body : Nat → Memory → Memory) (m : Memory) :
    forUpTo (n + k) body m = forUpTo k (fun i => body (n + i)) (forUpTo n body m) := by
  induction k with
  | zero => rfl
  | succ k ih => rw [← Nat.add_assoc, forUpTo_succ, ih, forUpTo_succ]

theorem convertSamples_add (frame : Memory) (src dst n k : Nat) (m : Memory) :
    convertSamples frame src dst (n + k) m =
      convertSamples frame (src + n) (dst + 4 * n) k (convertSamples frame src dst n m) := by
  simp only [convertSamples, forUpTo_add, Nat.mul_add, Nat.add_assoc]

/-- The Y-plane converter depends on the samples that it reads only. -/
theorem convertSamples_congr {frame frame' : Memory} {src n : Nat} (dst : Nat) (m : Memory)
    (h : SameInside src (src + n) frame frame') :
    convertSamples frame' src dst n m = convertSamples frame src dst n m :=
  forUpTo_congr (P := fun _ => True) trivial (fun _ _ _ _ => trivial) fun i hi m' _ => by
    rw [h (src + i) (by omega) (by omega)]

/-- Settles O37: the first command leaves the samples of the second as they were, so the two run the
two parts of one loop. -/
theorem yToHwSplitsIntoBatches : Obligations.YToHwSplitsIntoBatches := by
  intro s src dst n k hm hok hmod hn hk
  have hs := ((callOk_iff _ s).1 hok).2
  obtain ⟨hY, -⟩ := outcomeOkExactlyWhen s hs
  obtain ⟨hsum, -, hsrc, hdst, hdisj⟩ := (hY src dst (n + k)).1 hok
  have hok₁ := (hY src dst n).2 ⟨hmod, hn, by omega, by omega, by omega⟩
  have hexec₁ := exec_of_callOk hok₁
  set t₁ := deliverResponse responseLegal { s with mem := commandResult (.yToHw src dst n) s.mem }
  obtain ⟨hY₁, -⟩ := outcomeOkExactlyWhen t₁ rfl
  have hok₂ : callOk (.yToHw (src + n) (dst + 4 * n) k) t₁ = true :=
    (hY₁ _ _ _).2 ⟨by omega, hk, show _ ≤ s.memSize by omega, show _ ≤ s.memSize by omega, by omega⟩
  have hframe : SameOutside dst (dst + 4 * n) s.mem t₁.mem :=
    sameOutside_commandResult (i := .yToHw src dst n) (decide_eq_true hmod) hm
  have hsamples : SameInside (src + n) (src + n + k) s.mem t₁.mem :=
    fun a hlo hhi => hframe a (by omega)
  refine ⟨_, t₁, _, exec_of_callOk hok, hexec₁, exec_of_callOk hok₂, ?_⟩
  calc convertSamples t₁.mem (src + n) (dst + 4 * n) k t₁.mem
    _ = convertSamples s.mem (src + n) (dst + 4 * n) k t₁.mem := convertSamples_congr _ _ hsamples
    _ = convertSamples s.mem src dst (n + k) s.mem := (convertSamples_add ..).symm

end Sys2Proof.Machine
end

section
/-!
PROOFS. NV12 chroma (42_nv12_chroma.md): the result of `NV12_TO_CHW` (R142), constant chroma on the 2×2
luma blocks (R144), and the reference sequence of the upsampler against its rule (R140, R141).
-/

namespace Sys2Proof.Machine

/-! ### The result of `NV12_TO_CHW` (R142) -/

/-- Element `(j, i)` of plane `c` of a painted CHW tensor is its normalized sample (R15, R48). -/
theorem chwElement_of_paints {m frame : Memory} {d w h c j i : Nat}
    {source : Nat → Nat → Nat → Nat} {T : Memory → Memory}
    (hT : Paints (tensorAddr d fun k => k < 3 * (w * h))
      (normalizedByte frame d (chwSource w h source)) T)
    (hm : m.wf = true) (hc : c < 3) (hj : j < h) (hi : i < w) :
    chwElement (T m) d w h c j i = normByte (frame.read (source c j i)) := by
  have hji : j * w + i < w * h := Nat.mul_comm h w ▸ index_lt_area hj hi
  have hk : c * (w * h) + (j * w + i) < 3 * (w * h) := index_lt_area hc hji
  rw [chwElement, Nat.add_assoc, ← Nat.mul_add, readFloat_of_paints hT hm hk,
    chwSource_index source hj hi]

/-- Every element of the result of `NV12_TO_CHW` (R142). -/
theorem chwElement_nv12Frame {m : Memory} (hm : m.wf = true) {w h c j i : Nat} (src dst : Nat)
    (hw : w % 4 = 0) (hh : h % 2 = 0) (hc : c < 3) (hj : j < h) (hi : i < w) :
    chwElement (nv12Frame m src dst w h m) dst w h c j i =
      normByte (m.read (nv12Source src w h c j i)) :=
  chwElement_of_paints (paints_nv12Frame (by omega) hh) hm hc hj hi

/-- Settles O24: the call is `OK`, and its result is the painted tensor. -/
theorem nv12ToChwResult : Obligations.Nv12ToChwResult := by
  intro s src dst w h hm hs hmod heven hw hh hsrc hdst hdisj
  obtain ⟨-, hNv12, -⟩ := outcomeOkExactlyWhen s hs
  have hok := (hNv12 src dst w h).2 ⟨hmod, heven, hw, hh, hsrc, hdst, hdisj⟩
  have hshape : pShape (.nv12ToChw src dst w h) = true := by simp [pShape, hmod, heven]
  refine ⟨_, exec_of_callOk hok, answered_deliverResponse responseLegal s, fun j i hj hi => ?_,
    sameOutside_commandResult hshape hm⟩
  have helement {c : Nat} (hc : c < 3) :=
    chwElement_nv12Frame hm src dst hmod heven hc hj hi
  rw [Nat.shiftRight_one, Nat.shiftRight_one, Nat.add_assoc src (j * w) i]
  exact ⟨helement (by decide), helement (by decide), helement (by decide)⟩

/-! ### Constant chroma on each block (R144) -/

/-- The chroma planes have one source for all positions of a 2×2 block. -/
theorem nv12Source_block (src w h : Nat) {c : Nat} (hc : c ≠ 0) (j i : Nat) :
    nv12Source src w h c (j - j % 2) (i - i % 2) = nv12Source src w h c j i := by
  have half (n : Nat) : (n - n % 2) / 2 = n / 2 := by omega
  unfold nv12Source
  split
  · exact absurd rfl hc
  · rw [half, half]
  · rw [half, half]

/-- Settles O32: all four positions of a block hold the same normalized sample. -/
theorem nv12ChromaConstantOnBlocks : Obligations.Nv12ChromaConstantOnBlocks := by
  intro s src dst w h hm hok
  obtain ⟨-, hNv12, -⟩ := outcomeOkExactlyWhen s ((callOk_iff _ s).1 hok).2
  obtain ⟨hmod, heven, -⟩ := (hNv12 src dst w h).1 hok
  refine ⟨_, exec_of_callOk hok, fun j i hj hi => ?_⟩
  have helement {c : Nat} (hc : c < 3) :=
    chwElement_nv12Frame hm src dst hmod heven hc hj hi
  have hblock {c : Nat} (hc : c < 3) (hc0 : c ≠ 0) :
      chwElement (nv12Frame s.mem src dst w h s.mem) dst w h c j i =
        chwElement (nv12Frame s.mem src dst w h s.mem) dst w h c (j - j % 2) (i - i % 2) := by
    rw [helement hc, chwElement_nv12Frame hm src dst hmod heven hc (by omega) (by omega),
      nv12Source_block src w h hc0]
  exact ⟨hblock (by decide) (by decide), hblock (by decide) (by decide), helement (by decide),
    helement (by decide)⟩

/-! ### What lanes and copies paint (R13, R110) -/

/-- Lanes written to consecutive addresses paint consecutive elements of a tensor. -/
theorem paints_writeLanes {d : Nat} {val : Nat → Word} (n : Nat) : ∀ base : Nat,
    Paints (tensorAddr d fun k => base ≤ k ∧ k < base + n) (tensorByte d val)
      (writeLanes ((List.range' base n).map val) (d + 4 * base)) := by
  induction n with
  | zero => exact fun base m hm => ⟨hm, fun a => ⟨fun ⟨_, hk⟩ => by omega, fun _ => rfl⟩⟩
  | succ n ih =>
    intro base
    have hseq := paints_tensor_seq (paints_writeFloat (d := d) (k := base) rfl) (ih (base + 1))
    exact paints_tensor_congr (fun k => by omega) hseq

/-- A copy of painted bytes paints its destination, where the picture is the same there. -/
theorem paints_memCopy {Q : Nat → Prop} {f : Nat → Byte} {T : Memory → Memory} {dst src n : Nat}
    (hT : Paints Q f T) (hd : src + n ≤ dst ∨ dst + n ≤ src) (hsrc : ∀ j < n, Q (src + j))
    (hf : ∀ j < n, f (src + j) = f (dst + j)) :
    Paints (fun a => Q a ∨ spanHas (spanOf dst n) a = true) f (fun m => memCopy (T m) dst src n) := by
  intro m hm
  obtain ⟨hwf, hread⟩ := hT m hm
  refine ⟨wf_memCopy hwf dst src n, fun a => ?_⟩
  simp only [read_memCopy hwf hd, spanHas_spanOf]
  by_cases ha : dst ≤ a ∧ a < dst + n
  · have hj : a - dst < n := by omega
    have hcopy : (T m).read (src + (a - dst)) = f a := by
      rw [(hread _).1 (hsrc _ hj), hf _ hj, Nat.add_sub_cancel' ha.1]
    simp [ha, hcopy]
  · simpa [ha] using hread a

/-- Where the values of a row are those of the row above it, so are its bytes. -/
theorem tensorByte_rowBelow {d width base j : Nat} {val : Nat → Word}
    (hval : ∀ i < width, val (base + i) = val (base + width + i)) (hj : j < 4 * width) :
    tensorByte d val (d + 4 * base + j) = tensorByte d val (d + 4 * (base + width) + j) := by
  have hquot : (d + 4 * base + j - d) / 4 = base + j / 4 := by omega
  have hquot' : (d + 4 * (base + width) + j - d) / 4 = base + width + j / 4 := by omega
  have hrem : (d + 4 * base + j - d) % 4 = (d + 4 * (base + width) + j - d) % 4 := by omega
  rw [tensorByte, tensorByte, hquot, hquot', hrem, hval (j / 4) (by omega)]

/-! ### Two planes painted side by side (R145) -/

/-- The addresses of the elements with index in `K`, of a plane at `uDst` and of one at `vDst`. -/
def planesAddr (uDst vDst : Nat) (K : Nat → Prop) (a : Nat) : Prop :=
  tensorAddr uDst K a ∨ tensorAddr vDst K a

/-- The byte at address `a` of a plane of `size` floats at `uDst` or else of a plane at `vDst`. -/
def planesByte (uDst vDst size : Nat) (uVal vVal : Nat → Word) (a : Nat) : Byte :=
  if spanHas (spanOf uDst (4 * size)) a then tensorByte uDst uVal a else tensorByte vDst vVal a

theorem paints_planes_congr {uDst vDst : Nat} {K K' : Nat → Prop} {f : Nat → Byte}
    {T : Memory → Memory} (hK : ∀ k, K k ↔ K' k) (h : Paints (planesAddr uDst vDst K) f T) :
    Paints (planesAddr uDst vDst K') f T :=
  paints_congr (fun a => by simp only [planesAddr, tensorAddr, hK]) (fun _ _ => rfl) h

theorem paints_planes_forUpTo {uDst vDst : Nat} {K : Nat → Nat → Prop} {f : Nat → Byte}
    {body : Nat → Memory → Memory} (n : Nat)
    (h : ∀ i < n, Paints (planesAddr uDst vDst (K i)) f (fun m => body i m)) :
    Paints (planesAddr uDst vDst fun k => ∃ i < n, K i k) f (fun m => forUpTo n body m) :=
  paints_congr
    (fun a => by
      simp only [planesAddr, tensorAddr, and_or_left, exists_or, and_left_comm, exists_and_left])
    (fun _ _ => rfl) (paints_forUpTo n h)

section
variable {uDst vDst size : Nat} {uVal vVal : Nat → Word}

theorem planesByte_uPlane {a : Nat} (hlo : uDst ≤ a) (hhi : a < uDst + 4 * size) :
    planesByte uDst vDst size uVal vVal a = tensorByte uDst uVal a :=
  if_pos ((spanHas_spanOf _ _ _).2 ⟨hlo, hhi⟩)

theorem planesByte_vPlane {a : Nat} (hdisj : uDst + 4 * size ≤ vDst ∨ vDst + 4 * size ≤ uDst)
    (hlo : vDst ≤ a) (hhi : a < vDst + 4 * size) :
    planesByte uDst vDst size uVal vVal a = tensorByte vDst vVal a :=
  if_neg (by rw [spanHas_spanOf]; omega)

/-- Painting the same elements of two disjoint planes paints both planes. -/
theorem paints_planes {K : Nat → Prop} {T₁ T₂ : Memory → Memory}
    (hdisj : uDst + 4 * size ≤ vDst ∨ vDst + 4 * size ≤ uDst) (hK : ∀ k, K k → k < size)
    (hu : Paints (tensorAddr uDst K) (tensorByte uDst uVal) T₁)
    (hv : Paints (tensorAddr vDst K) (tensorByte vDst vVal) T₂) :
    Paints (planesAddr uDst vDst K) (planesByte uDst vDst size uVal vVal) (fun m => T₂ (T₁ m)) := by
  refine paints_seq (paints_congr (fun _ => Iff.rfl) (fun a ⟨hlo, hk⟩ => ?_) hu)
    (paints_congr (fun _ => Iff.rfl) (fun a ⟨hlo, hk⟩ => ?_) hv)
  · have := hK _ hk
    exact (planesByte_uPlane hlo (by omega)).symm
  · have := hK _ hk
    exact (planesByte_vPlane hdisj hlo (by omega)).symm

/-- Copying a painted row of both planes to the row below paints both rows (R141). -/
theorem paints_planes_rowCopies {width base : Nat} {T : Memory → Memory}
    (hdisj : uDst + 4 * size ≤ vDst ∨ vDst + 4 * size ≤ uDst) (hsize : base + 2 * width ≤ size)
    (hu : ∀ i < width, uVal (base + i) = uVal (base + width + i))
    (hv : ∀ i < width, vVal (base + i) = vVal (base + width + i))
    (hT : Paints (planesAddr uDst vDst fun k => base ≤ k ∧ k < base + width)
      (planesByte uDst vDst size uVal vVal) T) :
    Paints (planesAddr uDst vDst fun k => base ≤ k ∧ k < base + 2 * width)
      (planesByte uDst vDst size uVal vVal)
      (fun m => memCopy
        (memCopy (T m) (uDst + 4 * (base + width)) (uDst + 4 * base) (4 * width))
        (vDst + 4 * (base + width)) (vDst + 4 * base) (4 * width)) := by
  have hU := paints_memCopy (dst := uDst + 4 * (base + width)) (src := uDst + 4 * base)
    (n := 4 * width) hT (by omega) (fun j hj => .inl ⟨by omega, by omega⟩) (fun j hj => by
      rw [planesByte_uPlane (by omega) (by omega), planesByte_uPlane (by omega) (by omega),
        tensorByte_rowBelow hu hj])
  have hV := paints_memCopy (dst := vDst + 4 * (base + width)) (src := vDst + 4 * base)
    (n := 4 * width) hU (by omega) (fun j hj => .inl (.inr ⟨by omega, by omega⟩)) (fun j hj => by
      rw [planesByte_vPlane hdisj (by omega) (by omega),
        planesByte_vPlane hdisj (by omega) (by omega), tensorByte_rowBelow hv hj])
  refine paints_congr (fun a => ?_) (fun _ _ => rfl) hV
  simp only [planesAddr, tensorAddr, spanHas_spanOf]
  omega

end

/-! ### The reference sequence and the per-sample rule paint the same planes (R140, R141) -/

/-- Element `k` of an upsampled chroma plane of `width` columns whose samples are every second byte from
`src` on: the sample of the element's 2×2 block (R140). -/
def upsampledPair (frame : Memory) (src width k : Nat) : Word :=
  normByte (frame.read (src + k / width / 2 * width + 2 * (k % width / 2)))

theorem upsampledPair_index (frame : Memory) (src : Nat) {width j i : Nat} (hi : i < width) :
    upsampledPair frame src width (j * width + i) =
      normByte (frame.read (src + j / 2 * width + 2 * (i / 2))) := by
  have hrow : (j * width + i) / width = j := by
    rw [Nat.mul_comm j, Nat.mul_add_div (by omega), Nat.div_eq_of_lt hi, Nat.add_zero]
  have hcol : (j * width + i) % width = i := Nat.mul_add_mod_of_lt hi
  rw [upsampledPair, hrow, hcol]

/-- The two rows of a block hold the same samples. -/
theorem upsampledPair_rowBelow (frame : Memory) (src r : Nat) {width i : Nat} (hi : i < width) :
    upsampledPair frame src width (2 * r * width + i) =
      upsampledPair frame src width (2 * r * width + width + i) := by
  have hhalf : (2 * r + 1) / 2 = 2 * r / 2 := by omega
  rw [← Nat.succ_mul, upsampledPair_index frame src hi, upsampledPair_index frame src hi,
    Nat.succ_eq_add_one, hhalf]

/-- A pair of rows lies inside the plane. -/
theorem doubledRow_le {r rows width : Nat} (hr : r < rows) :
    2 * r * width + 2 * width ≤ 2 * rows * width := by
  rw [← Nat.add_mul]
  exact Nat.mul_le_mul_right width (by omega)

/-- The pairs of rows are all the elements of the plane. -/
theorem doubledRows_cover {rows width k : Nat} :
    (∃ r < rows, 2 * r * width ≤ k ∧ k < 2 * r * width + 2 * width) ↔ k < 2 * rows * width := by
  constructor
  · rintro ⟨r, hr, -, hk⟩
    exact hk.trans_le (doubledRow_le hr)
  · intro hk
    have hw : 0 < 2 * width := Nat.pos_of_ne_zero fun h => by simp_all
    have harea : 2 * rows * width = 2 * width * rows := by ring
    have hrow : 2 * (k / (2 * width)) * width = 2 * width * (k / (2 * width)) := by ring
    have hdiv := Nat.div_add_mod k (2 * width)
    have hmod := Nat.mod_lt k hw
    exact ⟨k / (2 * width), Nat.div_lt_of_lt_mul (harea ▸ hk), by omega, by omega⟩

/-- Four elements of the upper row of a plane's blocks are two samples, each twice. -/
theorem upsampledPair_batch (frame : Memory) (src r : Nat) {width g : Nat}
    (hg : 4 * g + 4 ≤ width) :
    (List.range' (2 * r * width + 4 * g) 4).map (upsampledPair frame src width) =
      duplicateLanes [normByte (frame.read (src + r * width + 4 * g)),
        normByte (frame.read (src + r * width + 4 * g + 2))] := by
  have hlane {e : Nat} (he : e < 4) : upsampledPair frame src width (2 * r * width + 4 * g + e) =
      normByte (frame.read (src + r * width + 4 * g + 2 * (e / 2))) := by
    have hcol : 2 * ((4 * g + e) / 2) = 4 * g + 2 * (e / 2) := by omega
    rw [Nat.add_assoc (2 * r * width), upsampledPair_index frame src (by omega), hcol,
      Nat.mul_div_cancel_left r (by decide), Nat.add_assoc (src + r * width)]
  calc (List.range' (2 * r * width + 4 * g) 4).map (upsampledPair frame src width)
    _ = (List.range 4).map fun e => upsampledPair frame src width (2 * r * width + 4 * g + e) := rfl
    _ = (List.range 4).map fun e =>
        normByte (frame.read (src + r * width + 4 * g + 2 * (e / 2))) :=
      List.map_congr_left fun e he => hlane (List.mem_range.1 he)
    _ = _ := rfl

/-- The doubled U lanes of a batch are four elements of the U plane (R110, R111). -/
theorem doubledEvenLanes_batch (frame : Memory) (uvSrc r : Nat) {width g : Nat}
    (hg : 4 * g + 4 ≤ width) :
    duplicateLanes (normalizeBatch (evenLanes (readBatch frame (uvSrc + r * width + 4 * g) 4))) =
      (List.range' (2 * r * width + 4 * g) 4).map (upsampledPair frame uvSrc width) :=
  (upsampledPair_batch frame uvSrc r hg).symm

/-- The doubled V lanes of a batch are four elements of the V plane (R110, R111). -/
theorem doubledOddLanes_batch (frame : Memory) (uvSrc r : Nat) {width g : Nat}
    (hg : 4 * g + 4 ≤ width) :
    duplicateLanes (normalizeBatch (oddLanes (readBatch frame (uvSrc + r * width + 4 * g) 4))) =
      (List.range' (2 * r * width + 4 * g) 4).map (upsampledPair frame (uvSrc + 1) width) := by
  have hsrc : uvSrc + 1 + r * width + 4 * g = uvSrc + r * width + 4 * g + 1 := by omega
  rw [upsampledPair_batch frame (uvSrc + 1) r hg, hsrc]
  rfl

/-- The batches of one row of the reference sequence (R141, R111), before the row is copied. -/
def nv12RowReference (frame : Memory) (uvSrc uDst vDst width r : Nat) (m : Memory) : Memory :=
  forUpTo (width / 4) (fun g m =>
    writeLanes (duplicateLanes (normalizeBatch (oddLanes
        (readBatch frame (uvSrc + r * width + 4 * g) 4)))) (vDst + 4 * (2 * r * width + 4 * g))
      (writeLanes (duplicateLanes (normalizeBatch (evenLanes
        (readBatch frame (uvSrc + r * width + 4 * g) 4)))) (uDst + 4 * (2 * r * width + 4 * g)) m)) m

/-- The reference sequence is the batches of each row and then the two copies of the row. -/
theorem nv12UpsampleReference_eq (frame : Memory) (uvSrc uDst vDst width rows : Nat) :
    nv12UpsampleReference frame uvSrc uDst vDst width rows = forUpTo rows (fun r m =>
      memCopy
        (memCopy (nv12RowReference frame uvSrc uDst vDst width r m)
          (uDst + 4 * (2 * r * width + width)) (uDst + 4 * (2 * r * width)) (4 * width))
        (vDst + 4 * (2 * r * width + width)) (vDst + 4 * (2 * r * width)) (4 * width)) := by
  simp only [← Nat.succ_mul]
  rfl

/-- The bytes of the U and the V plane of an upsampled NV12 chroma plane (R140). -/
def nv12PlanesByte (frame : Memory) (uvSrc uDst vDst width rows : Nat) : Nat → Byte :=
  planesByte uDst vDst (2 * rows * width) (upsampledPair frame uvSrc width)
    (upsampledPair frame (uvSrc + 1) width)

section
variable {uDst vDst width rows : Nat}
  (hdisj : uDst + 4 * (2 * rows * width) ≤ vDst ∨ vDst + 4 * (2 * rows * width) ≤ uDst)
include hdisj

/-- One output position of a pair, in both planes (R140). -/
theorem paints_nv12WritePair (frame : Memory) (uvSrc : Nat) {r c dy dx : Nat} (hr : r < rows)
    (hc : 2 * c + dx < width) (hdy : dy < 2) (hdx : dx < 2) :
    Paints (planesAddr uDst vDst fun k => k = (2 * r + dy) * width + (2 * c + dx))
      (nv12PlanesByte frame uvSrc uDst vDst width rows)
      (nv12WritePair frame uvSrc uDst vDst width r c dy dx) := by
  have hlt : (2 * r + dy) * width + (2 * c + dx) < 2 * rows * width := index_lt_area (by omega) hc
  have hr2 : (2 * r + dy) / 2 = r := by omega
  have hc2 : (2 * c + dx) / 2 = c := by omega
  have hu := upsampledPair_index frame uvSrc (j := 2 * r + dy) hc
  have hv := upsampledPair_index frame (uvSrc + 1) (j := 2 * r + dy) hc
  rw [hr2, hc2] at hu hv
  rw [show uvSrc + 1 + r * width + 2 * c = uvSrc + r * width + 2 * c + 1 by omega] at hv
  have hpair := paints_planes hdisj (fun k (hk : k = _) => hk ▸ hlt) (paints_writeFloat hu.symm)
    (paints_writeFloat hv.symm)
  exact hpair

/-- The per-sample rule paints both planes (R140). -/
theorem paints_nv12Upsample_planes (frame : Memory) (uvSrc : Nat) (hw : width % 2 = 0) :
    Paints (planesAddr uDst vDst fun k => k < 2 * rows * width)
      (nv12PlanesByte frame uvSrc uDst vDst width rows)
      (nv12Upsample frame uvSrc uDst vDst width (width / 2) rows) := by
  have hcols : 2 * (width / 2) = width := by omega
  refine paints_planes_congr (fun k => ?_)
    (paints_planes_forUpTo rows fun r hr => paints_planes_forUpTo (width / 2) fun c hc =>
      paints_planes_forUpTo 2 fun dy hdy => paints_planes_forUpTo 2 fun dx hdx =>
        paints_nv12WritePair hdisj frame uvSrc hr (by omega) hdy hdx)
  have hcovers := upsample_covers (rows := rows) (cols := width / 2) (k := k)
  rwa [hcols] at hcovers

/-- The batches of a row paint the upper row of its blocks in both planes (R141). -/
theorem paints_nv12RowReference (frame : Memory) (uvSrc : Nat) {r : Nat} (hr : r < rows)
    (hw : width % 4 = 0) :
    Paints (planesAddr uDst vDst fun k => 2 * r * width ≤ k ∧ k < 2 * r * width + width)
      (nv12PlanesByte frame uvSrc uDst vDst width rows)
      (nv12RowReference frame uvSrc uDst vDst width r) := by
  have hrow := doubledRow_le (width := width) hr
  refine paints_planes_congr
    (K := fun k => ∃ g < width / 4, 2 * r * width + 4 * g ≤ k ∧ k < 2 * r * width + 4 * g + 4)
    (fun k => ?_) (paints_planes_forUpTo (width / 4) fun g hg => ?_)
  · constructor
    · rintro ⟨g, hg, hk⟩
      omega
    · intro hk
      exact ⟨(k - 2 * r * width) / 4, by omega, by omega⟩
  · rw [doubledEvenLanes_batch frame uvSrc r (by omega),
      doubledOddLanes_batch frame uvSrc r (by omega)]
    exact paints_planes hdisj (fun k hk => by omega) (paints_writeLanes 4 _) (paints_writeLanes 4 _)

/-- The reference sequence paints both planes (R141). -/
theorem paints_nv12UpsampleReference (frame : Memory) (uvSrc : Nat) (hw : width % 4 = 0) :
    Paints (planesAddr uDst vDst fun k => k < 2 * rows * width)
      (nv12PlanesByte frame uvSrc uDst vDst width rows)
      (nv12UpsampleReference frame uvSrc uDst vDst width rows) := by
  rw [nv12UpsampleReference_eq]
  exact paints_planes_congr (fun k => doubledRows_cover) (paints_planes_forUpTo rows fun r hr =>
    paints_planes_rowCopies hdisj (doubledRow_le hr)
      (fun i hi => upsampledPair_rowBelow frame uvSrc r hi)
      (fun i hi => upsampledPair_rowBelow frame (uvSrc + 1) r hi)
      (paints_nv12RowReference hdisj frame uvSrc hr hw))

end

/-- Settles O38: both sequences paint the same two planes with the same bytes. -/
theorem nv12ReferenceSequenceAgrees : Obligations.Nv12ReferenceSequenceAgrees :=
  fun frame _ uvSrc _ _ _ _ hm hw hdisj =>
    paints_unique (paints_nv12UpsampleReference hdisj frame uvSrc hw)
      (paints_nv12Upsample_planes hdisj frame uvSrc (by omega)) hm

end Sys2Proof.Machine
end

section
/-!
PROOFS. I420 chroma (43_i420_chroma.md): the result of `I420_TO_CHW` (R162), the agreement of the NV12 and
the I420 command on one picture (R164), and the reference sequence of the upsampler against its rule
(R160, R161).
-/

namespace Sys2Proof.Machine

/-! ### The result of `I420_TO_CHW` (R162) -/

/-- Every element of the result of `I420_TO_CHW` (R162). -/
theorem chwElement_i420Frame {m : Memory} (hm : m.wf = true) {w h c j i : Nat} (src dst : Nat)
    (hw : w % 8 = 0) (hh : h % 2 = 0) (hc : c < 3) (hj : j < h) (hi : i < w) :
    chwElement (i420Frame m src dst w h m) dst w h c j i =
      normByte (m.read (i420Source src w h c j i)) :=
  chwElement_of_paints (paints_i420Frame (by omega) hh) hm hc hj hi

/-- Settles O25: the call is `OK`, and its result is the painted tensor. -/
theorem i420ToChwResult : Obligations.I420ToChwResult := by
  intro s src dst w h hm hs hmod heven hw hh hsrc hdst hdisj
  obtain ⟨-, -, hI420, -⟩ := outcomeOkExactlyWhen s hs
  have hok := (hI420 src dst w h).2 ⟨hmod, heven, hw, hh, hsrc, hdst, hdisj⟩
  have hshape : pShape (.i420ToChw src dst w h) = true := by simp [pShape, hmod, heven]
  refine ⟨_, exec_of_callOk hok, answered_deliverResponse responseLegal s, fun j i hj hi => ?_,
    sameOutside_commandResult hshape hm⟩
  have helement {c : Nat} (hc : c < 3) :=
    chwElement_i420Frame hm src dst hmod heven hc hj hi
  rw [Nat.shiftRight_one, Nat.shiftRight_one, Nat.add_assoc src (j * w) i]
  exact ⟨helement (by decide), helement (by decide), helement (by decide)⟩

/-! ### One picture in two layouts (R164) -/

/-- A byte of a tensor depends on its place in the tensor and on the sample behind its element only. -/
theorem normalizedByte_relocate {frame frame' : Memory} {d d' a : Nat} {source source' : Nat → Nat}
    (h : frame.read (source (a / 4)) = frame'.read (source' (a / 4))) :
    normalizedByte frame d source (d + a) = normalizedByte frame' d' source' (d' + a) := by
  simp only [normalizedByte, tensorByte, Nat.add_sub_cancel_left, h]

/-- Two painted CHW tensors of one size are byte-identical, wherever they lie, if the samples behind
each element are equal. -/
theorem read_eq_of_paints_sameSamples {frame frame' m m' : Memory} {d d' w h a : Nat}
    {source source' : Nat → Nat → Nat → Nat} {T T' : Memory → Memory}
    (hT : Paints (tensorAddr d fun k => k < 3 * (w * h))
      (normalizedByte frame d (chwSource w h source)) T)
    (hT' : Paints (tensorAddr d' fun k => k < 3 * (w * h))
      (normalizedByte frame' d' (chwSource w h source')) T')
    (hm : m.wf = true) (hm' : m'.wf = true)
    (hsame : ∀ c j i, j < h → i < w → frame.read (source c j i) = frame'.read (source' c j i))
    (ha : a < 12 * (w * h)) : (T m).read (d + a) = (T' m').read (d' + a) := by
  have harea : 0 < w * h := by omega
  have hrow : a / 4 % (w * h) / w < h := Nat.div_lt_of_lt_mul (Nat.mod_lt _ harea)
  have hcol : a / 4 % (w * h) % w < w := Nat.mod_lt _ (Nat.pos_of_mul_pos_right harea)
  calc (T m).read (d + a)
    _ = normalizedByte frame d (chwSource w h source) (d + a) :=
      ((hT m hm).2 _).1 ⟨by omega, by omega⟩
    _ = normalizedByte frame' d' (chwSource w h source') (d' + a) :=
      normalizedByte_relocate (hsame _ _ _ hrow hcol)
    _ = (T' m').read (d' + a) := (((hT' m' hm').2 _).1 ⟨by omega, by omega⟩).symm

/-- Frames that carry logically identical data have equal samples behind each element (R164). -/
theorem nv12Sample_eq_i420Sample {frame frame' : Memory} {src src' w h : Nat} (hw : w % 2 = 0)
    (hh : h % 2 = 0) (hluma : ∀ k, k < w * h → frame.read (src + k) = frame'.read (src' + k))
    (hchroma : ∀ r c, r < h / 2 → c < w / 2 →
      frame.read (src + w * h + r * w + 2 * c) = frame'.read (src' + w * h + r * (w / 2) + c) ∧
      frame.read (src + w * h + r * w + 2 * c + 1) =
        frame'.read (src' + w * h + w * h / 4 + r * (w / 2) + c))
    (c : Nat) {j i : Nat} (hj : j < h) (hi : i < w) :
    frame.read (nv12Source src w h c j i) = frame'.read (i420Source src' w h c j i) := by
  obtain ⟨hu, hv⟩ := hchroma (j / 2) (i / 2) (by omega) (by omega)
  match c with
  | 0 => exact hluma _ (Nat.mul_comm h w ▸ index_lt_area hj hi)
  | 1 => exact hu
  | _ + 2 => exact hv

/-- Settles O33: both commands paint a tensor of the same samples. -/
theorem nv12AndI420Agree : Obligations.Nv12AndI420Agree := by
  intro s s' src dst src' dst' w h hm hm' hok hok' hluma hchroma
  obtain ⟨-, -, hI420, -⟩ := outcomeOkExactlyWhen s' ((callOk_iff _ s').1 hok').2
  obtain ⟨hmod, heven, -⟩ := (hI420 src' dst' w h).1 hok'
  have hw : w % 2 = 0 := by omega
  have hagree {a : Nat} (ha : a < 12 * (w * h)) :=
    read_eq_of_paints_sameSamples (d := dst) (d' := dst') (paints_nv12Frame hw heven)
      (paints_i420Frame hw heven) hm hm'
      (fun c _ _ => nv12Sample_eq_i420Sample hw heven hluma hchroma c) ha
  exact ⟨_, _, exec_of_callOk hok, exec_of_callOk hok', fun _ ha => hagree ha⟩

/-! ### The reference sequence and the per-sample rule paint the same plane (R160, R161) -/

/-- The doubled lanes of a batch of `n` samples are `2*n` elements, two for each sample (R110). -/
theorem doubledLanes_batch {frame : Memory} {val : Nat → Word} (n : Nat) : ∀ {base src : Nat},
    (∀ e < 2 * n, val (base + e) = normByte (frame.read (src + e / 2))) →
      duplicateLanes (normalizeBatch (readBatch frame src n)) =
        (List.range' base (2 * n)).map val := by
  induction n with
  | zero => exact fun _ => rfl
  | succ n ih =>
    intro base src hval
    have hleft : val base = normByte (frame.read src) := hval 0 (by omega)
    have hright : val (base + 1) = normByte (frame.read src) := hval 1 (by omega)
    have hrest : duplicateLanes (normalizeBatch (readBatch frame (src + 1) n)) =
        (List.range' (base + 1 + 1) (2 * n)).map val := ih fun e he => by
      have hindex : base + 1 + 1 + e = base + (e + 2) := by omega
      have hsample : src + 1 + e / 2 = src + (e + 2) / 2 := by omega
      rw [hindex, hsample, hval _ (by omega)]
    rw [Nat.mul_succ, List.range'_succ, List.range'_succ, List.map_cons, List.map_cons, hleft,
      hright, ← hrest]
    rfl

section
variable {frame : Memory} {d base cols rowSrc : Nat} {val : Nat → Word}

/-- The batches of a row paint `2*cols` elements, two for each sample (R161). -/
theorem paints_i420RowReference (hcols : cols % 4 = 0)
    (hval : ∀ i < 2 * cols, val (base + i) = normByte (frame.read (rowSrc + i / 2))) :
    Paints (tensorAddr d fun k => base ≤ k ∧ k < base + 2 * cols) (tensorByte d val)
      (i420RowReference frame rowSrc cols (d + 4 * base)) := by
  refine paints_tensor_congr
    (K := fun k => ∃ g < cols / 4, base + 8 * g ≤ k ∧ k < base + 8 * g + 8) (fun k => ?_)
    (paints_tensor_forUpTo (cols / 4) fun g hg => ?_)
  · constructor
    · rintro ⟨g, hg, hk⟩
      omega
    · intro hk
      exact ⟨(k - base) / 8, by omega, by omega⟩
  · have hlanes := doubledLanes_batch (val := val) (base := base + 8 * g) 4 fun e he => by
      have hhalf : (8 * g + e) / 2 = 4 * g + e / 2 := by omega
      rw [Nat.add_assoc base, hval _ (by omega), hhalf, ← Nat.add_assoc]
    rw [hlanes, Nat.add_assoc d, ← Nat.mul_add]
    exact paints_writeLanes 8 _

/-- Copying a painted row to the row below paints both rows (R161). -/
theorem paints_rowCopy {width : Nat} {T : Memory → Memory}
    (hval : ∀ i < width, val (base + i) = val (base + width + i))
    (hT : Paints (tensorAddr d fun k => base ≤ k ∧ k < base + width) (tensorByte d val) T) :
    Paints (tensorAddr d fun k => base ≤ k ∧ k < base + 2 * width) (tensorByte d val)
      (fun m => memCopy (T m) (d + 4 * (base + width)) (d + 4 * base) (4 * width)) := by
  have hcopy := paints_memCopy (dst := d + 4 * (base + width)) (src := d + 4 * base)
    (n := 4 * width) hT (by omega) (fun j hj => ⟨by omega, by omega⟩)
    (fun j hj => tensorByte_rowBelow hval hj)
  refine paints_congr (fun a => ?_) (fun _ _ => rfl) hcopy
  simp only [tensorAddr, spanHas_spanOf]
  omega

end

/-- Element `k` of an upsampled chroma plane of `width` columns whose sample rows are `stride` bytes
apart from `src` on: the sample of the element's 2×2 block (R160). -/
def upsampledSample (frame : Memory) (src stride width k : Nat) : Word :=
  normByte (frame.read (src + k / width / 2 * stride + k % width / 2))

theorem upsampledSample_index (frame : Memory) (src stride j : Nat) {width i : Nat} (hi : i < width) :
    upsampledSample frame src stride width (j * width + i) =
      normByte (frame.read (src + j / 2 * stride + i / 2)) := by
  have hrow : (j * width + i) / width = j := by
    rw [Nat.mul_comm j, Nat.mul_add_div (by omega), Nat.div_eq_of_lt hi, Nat.add_zero]
  rw [upsampledSample, hrow, Nat.mul_add_mod_of_lt hi]

/-- The upper row of the blocks of sample row `r`. -/
theorem upsampledSample_upperRow (frame : Memory) (src stride r : Nat) {width i : Nat}
    (hi : i < width) : upsampledSample frame src stride width (2 * r * width + i) =
      normByte (frame.read (src + r * stride + i / 2)) := by
  rw [upsampledSample_index frame src stride (2 * r) hi, Nat.mul_div_cancel_left r (by decide)]

/-- The lower row of the blocks of sample row `r`. -/
theorem upsampledSample_lowerRow (frame : Memory) (src stride r : Nat) {width i : Nat}
    (hi : i < width) : upsampledSample frame src stride width (2 * r * width + width + i) =
      normByte (frame.read (src + r * stride + i / 2)) := by
  have hhalf : (2 * r + 1) / 2 = r := by omega
  rw [← Nat.succ_mul, upsampledSample_index frame src stride _ hi, Nat.succ_eq_add_one, hhalf]

/-- The per-sample rule paints the plane (R160). -/
theorem paints_i420Upsample_plane (frame : Memory) (pSrc stride rows cols pDst : Nat) :
    Paints (tensorAddr pDst fun k => k < 2 * rows * (2 * cols))
      (tensorByte pDst (upsampledSample frame pSrc stride (2 * cols)))
      (i420Upsample frame pSrc stride rows cols pDst) :=
  paints_tensor_congr (fun k => by omega) (paints_i420Upsample (base := 0) fun j _ i hi => by
    rw [Nat.zero_add, upsampledSample_index frame pSrc stride j hi])

/-- The reference sequence paints the plane (R161). -/
theorem paints_i420UpsampleReference (frame : Memory) (pSrc stride rows pDst : Nat) {cols : Nat}
    (hcols : cols % 4 = 0) :
    Paints (tensorAddr pDst fun k => k < 2 * rows * (2 * cols))
      (tensorByte pDst (upsampledSample frame pSrc stride (2 * cols)))
      (i420UpsampleReference frame pSrc stride rows cols pDst) := by
  refine paints_tensor_congr (fun k => doubledRows_cover) (paints_tensor_forUpTo rows fun r _ => ?_)
  have hrow := paints_i420RowReference (d := pDst) hcols fun i hi =>
    upsampledSample_upperRow frame pSrc stride r hi
  rw [Nat.succ_mul (2 * r)]
  exact paints_rowCopy (fun i hi => (upsampledSample_upperRow frame pSrc stride r hi).trans
    (upsampledSample_lowerRow frame pSrc stride r hi).symm) hrow

/-- Settles O39: both sequences paint the same plane with the same bytes. -/
theorem i420ReferenceSequenceAgrees : Obligations.I420ReferenceSequenceAgrees :=
  fun frame _ pSrc stride rows cols pDst hm hcols =>
    paints_unique (paints_i420UpsampleReference frame pSrc stride rows pDst hcols)
      (paints_i420Upsample_plane frame pSrc stride rows cols pDst) hm

end Sys2Proof.Machine
end

section
/-!
PROOFS. The tile extractor (44_tile_extractor.md): the result of `TILE_TO_CHW` (R180), its agreement with
`I420_TO_CHW` on a whole frame and on a crop with even `y` (R184), and the pointer walk of the reference
traversal against the address formulas (R183).
-/

namespace Sys2Proof.Machine

/-! ### The result of `TILE_TO_CHW` (R180, R181, R186) -/

/-- The sample in row `r`, column `c` of a chroma sub-plane, from the start of the frame's plane (R181). -/
theorem tileChromaCorner_add (planeBase x y frameWidth r c : Nat) :
    tileChromaCorner planeBase x y frameWidth + r * (frameWidth >>> 1) + c =
      planeBase + ((y >>> 1) + r) * (frameWidth >>> 1) + (x >>> 1) + c := by
  rw [tileChromaCorner, Nat.add_mul]
  omega

/-- Every element of the result of `TILE_TO_CHW` (R180). -/
theorem chwElement_tileFrame {m : Memory} (hm : m.wf = true) {w h c j i : Nat}
    (src dst x y fw fh : Nat) (hw : w % 8 = 0) (hh : h % 2 = 0) (hc : c < 3) (hj : j < h)
    (hi : i < w) :
    chwElement (tileFrame m src dst x y w h fw fh m) dst w h c j i =
      normByte (m.read (tileSource src x y fw fh c j i)) :=
  chwElement_of_paints (paints_tileFrame (by omega) hh) hm hc hj hi

/-- Settles O26: the call is `OK`, and its result is the painted tensor. -/
theorem tileToChwResult : Obligations.TileToChwResult := by
  intro s src dst x y w h fw fh hm hs hx hmod heven hfw hfh hxw hyh hw hh hfw1 hfh1 hsrc hdst hdisj
  obtain ⟨-, -, -, hTile, -⟩ := outcomeOkExactlyWhen s hs
  have hok := (hTile src dst x y w h fw fh).2
    ⟨hx, hmod, heven, hfw, hfh, hxw, hyh, hw, hh, hfw1, hfh1, hsrc, hdst, hdisj⟩
  have hshape := pShape_of_preconditions ((callOk_iff _ s).1 hok).1
  refine ⟨_, exec_of_callOk hok, answered_deliverResponse responseLegal s, fun j i hj hi => ?_,
    sameOutside_commandResult hshape hm⟩
  have helement {c : Nat} (hc : c < 3) :=
    chwElement_tileFrame hm src dst x y fw fh hmod heven hc hj hi
  rw [Nat.shiftRight_one j, Nat.shiftRight_one i, ← tileChromaCorner_add, ← tileChromaCorner_add,
    Nat.add_assoc (src + (y + j) * fw) x i]
  exact ⟨helement (by decide), helement (by decide), helement (by decide)⟩

/-! ### A tile is a crop of its frame (R184) -/

/-- With `x` and `y` even, the chroma sample of element `(j, i)` of the tile is the one of element
`(y+j, x+i)` of the frame, in a plane that starts at `planeBase`. -/
theorem tileChromaCorner_add_of_even {x y : Nat} (planeBase fw j i : Nat) (hx : x % 2 = 0)
    (hy : y % 2 = 0) : tileChromaCorner planeBase x y fw + j / 2 * (fw >>> 1) + i / 2 =
      planeBase + (y + j) / 2 * (fw / 2) + (x + i) / 2 := by
  have hrow : y / 2 + j / 2 = (y + j) / 2 := by omega
  have hcol : x / 2 + i / 2 = (x + i) / 2 := by omega
  rw [tileChromaCorner_add, Nat.shiftRight_one, Nat.shiftRight_one, Nat.shiftRight_one, hrow,
    Nat.add_assoc, hcol]

/-- The V plane starts a quarter of the luma area after the U plane. -/
theorem tileVBase_eq {fw fh : Nat} (src : Nat) (hfw : fw % 2 = 0) (hfh : fh % 2 = 0) :
    tileVBase src fw fh = src + fw * fh + fw * fh / 4 := by
  have harea : 4 * (fw / 2 * (fh / 2)) = fw * fh := by rw [← area_of_even hfw hfh]; ring
  rw [tileVBase, Nat.shiftRight_one, Nat.shiftRight_one]
  omega

/-- With `x` and `y` even, the sample behind element `(j, i)` of the tile is the one behind element
`(y+j, x+i)` of the frame. -/
theorem tileSource_eq_i420Source {x y fw fh : Nat} (src : Nat) (hx : x % 2 = 0) (hy : y % 2 = 0)
    (hfw : fw % 2 = 0) (hfh : fh % 2 = 0) (c j i : Nat) :
    tileSource src x y fw fh c j i = i420Source src fw fh c (y + j) (x + i) := by
  match c with
  | 0 => exact Nat.add_assoc ..
  | 1 => exact tileChromaCorner_add_of_even (tileUBase src fw fh) fw j i hx hy
  | c + 2 =>
    calc tileSource src x y fw fh (c + 2) j i
      _ = tileVBase src fw fh + (y + j) / 2 * (fw / 2) + (x + i) / 2 :=
        tileChromaCorner_add_of_even _ fw j i hx hy
      _ = i420Source src fw fh (c + 2) (y + j) (x + i) := by
        rw [tileVBase_eq src hfw hfh]
        rfl

/-- A tile that is the whole frame paints what the I420 conversion paints. -/
theorem tileFrame_wholeFrame {m : Memory} (hm : m.wf = true) {w h : Nat} (frame : Memory)
    (src dst : Nat) (hw : w % 2 = 0) (hh : h % 2 = 0) :
    tileFrame frame src dst 0 0 w h w h m = i420Frame frame src dst w h m := by
  have hsource : tileSource src 0 0 w h = i420Source src w h := by
    funext c j i
    rw [tileSource_eq_i420Source src rfl rfl hw hh, Nat.zero_add, Nat.zero_add]
  have hTile : Paints _ (normalizedByte frame dst (chwSource w h (tileSource src 0 0 w h))) _ :=
    paints_tileFrame hw hh
  rw [hsource] at hTile
  exact paints_unique hTile (paints_i420Frame hw hh) hm

/-- Settles O34: both calls are `OK`, and their results are one tensor. -/
theorem fullFrameTileIsI420 : Obligations.FullFrameTileIsI420 := by
  intro s src dst w h hm hok
  have hs := ((callOk_iff _ s).1 hok).2
  obtain ⟨-, -, hI420, hTile, -⟩ := outcomeOkExactlyWhen s hs
  obtain ⟨hmod, heven, hw, hh, hranges⟩ := (hI420 src dst w h).1 hok
  have hokTile : callOk (.tileToChw src dst 0 0 w h w h) s = true :=
    (hTile src dst 0 0 w h w h).2
      ⟨rfl, hmod, heven, by omega, heven, by omega, by omega, hw, hh, hw, hh, hranges⟩
  have hmem : commandResult (.tileToChw src dst 0 0 w h w h) s.mem =
      commandResult (.i420ToChw src dst w h) s.mem :=
    tileFrame_wholeFrame hm s.mem src dst (by omega) heven
  refine ⟨_, exec_of_callOk hokTile, ?_⟩
  rw [exec_of_callOk hok, hmem]

/-- Settles O35: both elements are the same normalized sample. -/
theorem evenTileIsCropOfFullFrame : Obligations.EvenTileIsCropOfFullFrame := by
  intro s src dst dst' x y w h fw fh hm hy hfw8 hok hok'
  obtain ⟨-, -, -, hTile, -⟩ := outcomeOkExactlyWhen s ((callOk_iff _ s).1 hok).2
  obtain ⟨hx, hmod, heven, hfw, hfh, hxw, hyh, -⟩ := (hTile src dst x y w h fw fh).1 hok
  refine ⟨_, _, exec_of_callOk hok, exec_of_callOk hok', fun c j i hc hj hi => ?_⟩
  calc chwElement (tileFrame s.mem src dst x y w h fw fh s.mem) dst w h c j i
    _ = normByte (s.mem.read (tileSource src x y fw fh c j i)) :=
      chwElement_tileFrame hm src dst x y fw fh hmod heven hc hj hi
    _ = normByte (s.mem.read (i420Source src fw fh c (y + j) (x + i))) := by
      rw [tileSource_eq_i420Source src (by omega) hy hfw hfh]
    _ = chwElement (i420Frame s.mem src dst' fw fh s.mem) dst' fw fh c (y + j) (x + i) :=
      (chwElement_i420Frame hm src dst' hfw8 hfh hc (by omega) (by omega)).symm

/-! ### The pointer walk and the address formulas (R183) -/

/-- A loop's first round, then the others. -/
theorem forUpTo_succ_first (n : Nat) (body : Nat → Memory → Memory) (m : Memory) :
    forUpTo (n + 1) body m = forUpTo n (fun i => body (i + 1)) (body 0 m) := by
  simp only [Nat.add_comm _ 1, forUpTo_add 1 n]
  rfl

/-- The luma walk converts row `j` at the address that `j` stride jumps reach. -/
theorem walkLuma_eq_forUpTo (frame : Memory) (width jump : Nat) : ∀ (rows src dst : Nat) (m : Memory),
    walkLuma frame width jump rows src dst m = forUpTo rows (fun j =>
      convertSamples frame (src + j * (width + jump)) (dst + 4 * (j * width)) width) m
  | 0, _, _, _ => rfl
  | rows + 1, src, dst, m => by
    have hsrc (j : Nat) : src + width + jump + j * (width + jump) =
        src + (j + 1) * (width + jump) := by ring
    have hdst (j : Nat) : dst + 4 * width + 4 * (j * width) = dst + 4 * ((j + 1) * width) := by ring
    rw [walkLuma, walkLuma_eq_forUpTo frame width jump rows, forUpTo_succ_first]
    simp only [hsrc, hdst, Nat.zero_mul, Nat.mul_zero, Nat.add_zero]

/-- The chroma walk is the reference sequence of the I420 upsampler on the sub-plane (R161). -/
theorem walkChroma_eq_i420UpsampleReference (frame : Memory) (cols jump : Nat) :
    ∀ (rows src dst : Nat) (m : Memory), walkChroma frame cols jump rows src dst m =
      i420UpsampleReference frame src (cols + jump) rows cols dst m
  | 0, _, _, _ => rfl
  | rows + 1, src, dst, m => by
    have hsrc (r : Nat) : src + cols + jump + r * (cols + jump) =
        src + (r + 1) * (cols + jump) := by ring
    have hupper (r : Nat) : dst + 4 * (4 * cols) + 4 * (2 * r * (2 * cols)) =
        dst + 4 * (2 * (r + 1) * (2 * cols)) := by ring
    have hlower (r : Nat) : dst + 4 * (4 * cols) + 4 * ((2 * r + 1) * (2 * cols)) =
        dst + 4 * ((2 * (r + 1) + 1) * (2 * cols)) := by ring
    rw [walkChroma, walkChroma_eq_i420UpsampleReference frame cols jump rows,
      i420UpsampleReference, i420UpsampleReference, forUpTo_succ_first]
    simp only [hsrc, hupper, hlower, Nat.zero_mul, Nat.mul_zero, Nat.add_zero, Nat.zero_add,
      Nat.one_mul]

/-- The luma walk leaves what the address formula leaves (R180). -/
theorem walkLuma_eq_tileLuma (frame : Memory) (src dst x y height : Nat) {width frameWidth : Nat}
    (hwidth : width ≤ frameWidth) (m : Memory) :
    walkLuma frame width (frameWidth - width) height (src + y * frameWidth + x) dst m =
      tileLuma frame src dst x y width height frameWidth m := by
  have hsrc (j i : Nat) : src + y * frameWidth + x + j * frameWidth + i =
      src + (y + j) * frameWidth + (x + i) := by ring
  have hdst (j i : Nat) : dst + 4 * (j * width) + 4 * i = dst + 4 * (j * width + i) := by ring
  rw [walkLuma_eq_forUpTo, Nat.add_sub_cancel' hwidth, tileLuma]
  exact forUpTo_congr (P := fun _ => True) trivial (fun _ _ _ _ => trivial) fun j _ m' _ => by
    simp only [convertSamples, hsrc, hdst]

/-- The chroma walk leaves what the upsampler of the I420 unit leaves (R180). -/
theorem walkChroma_eq_i420Upsample {m : Memory} (hm : m.wf = true) (frame : Memory)
    (src dst rows : Nat) {cols stride : Nat} (hcols : cols % 4 = 0) (hle : cols ≤ stride) :
    walkChroma frame cols (stride - cols) rows src dst m =
      i420Upsample frame src stride rows cols dst m := by
  rw [walkChroma_eq_i420UpsampleReference, Nat.add_sub_cancel' hle,
    i420ReferenceSequenceAgrees frame m src stride rows cols dst hm hcols]

theorem wf_tileLuma {m : Memory} (hm : m.wf = true) (frame : Memory)
    (src dst x y width height frameWidth : Nat) :
    (tileLuma frame src dst x y width height frameWidth m).wf = true :=
  forUpTo_keeps (P := fun m => m.wf = true) hm fun _ _ _ hrow =>
    forUpTo_keeps (P := fun m => m.wf = true) hrow fun _ _ _ h => wf_writeFloat h _ _

theorem wf_i420Upsample {m : Memory} (hm : m.wf = true) (frame : Memory)
    (pSrc stride rows cols pDst : Nat) :
    (i420Upsample frame pSrc stride rows cols pDst m).wf = true :=
  (paints_i420Upsample_plane frame pSrc stride rows cols pDst m hm).1

/-- Settles O40: each of the three walks leaves what its address formula leaves. -/
theorem tileReferenceTraversalAgrees : Obligations.TileReferenceTraversalAgrees := by
  intro frame m src dst x y w h fw fh hm _ hmod _ _ hxw
  have hcols : w / 2 % 4 = 0 := by omega
  have hle : w / 2 ≤ fw >>> 1 := by rw [Nat.shiftRight_one]; omega
  have hY := wf_tileLuma hm frame src dst x y w h fw
  have hU := wf_i420Upsample hY frame (tileChromaCorner (tileUBase src fw fh) x y fw) (fw >>> 1)
    (h / 2) (w / 2) (dst + 4 * (w * h))
  rw [tileFrameReference, walkLuma_eq_tileLuma frame src dst x y h (by omega),
    walkChroma_eq_i420Upsample hY frame _ _ _ hcols hle,
    walkChroma_eq_i420Upsample hU frame _ _ _ hcols hle, tileFrame]

end Sys2Proof.Machine
end

section
/-!
PROOFS. The bilinear upscaler (45_bilinear_upscaler.md): the rounding average (R201), the diagonal
(R204), the result of `BILINEAR_UPSCALE` (R200, R203), its last column and row (R209), channels with
equal rows (R208), and the call that normalizes its output (R207).
-/

namespace Sys2Proof.Machine

/-! ### The rounding average (R201) -/

@[simp] theorem toNat_roundAvg (a b : Byte) :
    (roundAvg a b).toNat = (a.toNat + b.toNat + 1) / 2 := by
  rw [roundAvg, BitVec.toNat_ofNat, Nat.shiftRight_one]
  omega

theorem roundAvg_comm (a b : Byte) : roundAvg a b = roundAvg b a := by
  rw [roundAvg, roundAvg, Nat.add_comm a.toNat]

@[simp] theorem roundAvg_self (a : Byte) : roundAvg a a = a := by
  apply BitVec.eq_of_toNat_eq
  rw [toNat_roundAvg]
  omega

/-- Settles O41: the sum is formed without wrap-around; pairing (0, 0, 255) from the left and from the
right gives different bytes. -/
theorem roundAvgValues : Obligations.RoundAvgValues :=
  ⟨fun a b => ⟨toNat_roundAvg a b, roundAvg_comm a b, roundAvg_self a⟩, by decide, by decide,
    by decide, by decide, by decide, 0, 0, 255, by decide⟩

/-! ### The diagonal (R204) -/

theorem toNat_diagonalAvg (tl tr bl br : Byte) : (diagonalAvg tl tr bl br).toNat =
    ((tl.toNat + tr.toNat + 1) / 2 + (bl.toNat + br.toNat + 1) / 2 + 1) / 2 := by
  simp only [diagonalAvg, toNat_roundAvg]

@[simp] theorem diagonalAvg_equalColumns (l r : Byte) : diagonalAvg l l r r = roundAvg l r := by
  simp only [diagonalAvg, roundAvg_self]

@[simp] theorem diagonalAvg_equalRows (l r : Byte) : diagonalAvg l r l r = roundAvg l r := by
  simp only [diagonalAvg, roundAvg_self]

/-- Settles O42: the two stages round up at most once more than the 4-term value does. -/
theorem diagonalIsTwoStage : Obligations.DiagonalIsTwoStage := by
  refine ⟨fun tl tr bl br => ?_, by decide, by decide, by decide⟩
  rw [toNat_diagonalAvg]
  exact ⟨rfl, by omega, by omega⟩

/-! ### The result of `BILINEAR_UPSCALE` (R200, R203) -/

/-- A coordinate inside the channel is its own clamp. -/
theorem clamp_eq_self {i n : Nat} (h : i < n) : min i (n - 1) = i := by omega

section
variable {channel : Memory} {src w h : Nat}

/-! The four output bytes of the source pixel in row `y`, column `x`. -/

theorem upscaledByte_evenRow_evenColumn (y x : Nat) :
    upscaledByte channel src w h (2 * y) (2 * x) = clampedSample channel src w h y x := by
  simp [upscaledByte]

theorem upscaledByte_evenRow_oddColumn (y x : Nat) :
    upscaledByte channel src w h (2 * y) (2 * x + 1) =
      roundAvg (clampedSample channel src w h y x) (clampedSample channel src w h y (x + 1)) := by
  have hx : (2 * x + 1) / 2 = x := by omega
  simp [upscaledByte, hx]

theorem upscaledByte_oddRow_evenColumn (y x : Nat) :
    upscaledByte channel src w h (2 * y + 1) (2 * x) =
      roundAvg (clampedSample channel src w h y x) (clampedSample channel src w h (y + 1) x) := by
  have hy : (2 * y + 1) / 2 = y := by omega
  simp [upscaledByte, hy]

theorem upscaledByte_oddRow_oddColumn (y x : Nat) :
    upscaledByte channel src w h (2 * y + 1) (2 * x + 1) =
      diagonalAvg (clampedSample channel src w h y x) (clampedSample channel src w h y (x + 1))
        (clampedSample channel src w h (y + 1) x)
        (clampedSample channel src w h (y + 1) (x + 1)) := by
  have hy : (2 * y + 1) / 2 = y := by omega
  have hx : (2 * x + 1) / 2 = x := by omega
  simp [upscaledByte, hy, hx]

end

/-- What the upscaler leaves at row `v`, column `u` of its output. -/
theorem read_upscaleChannel {m : Memory} (hm : m.wf = true) (channel : Memory) (src dst : Nat)
    {w h v u : Nat} (hv : v < 2 * h) (hu : u < 2 * w) :
    (upscaleChannel channel src dst w h m).read (upscaledAddress dst w v u) =
      upscaledByte channel src w h v u := by
  have hin : v * (2 * w) + u < 2 * h * (2 * w) := index_lt_area hv hu
  have hoffset : upscaledAddress dst w v u - dst = v * (2 * w) + u := by
    rw [upscaledAddress]
    omega
  have hrow : (v * (2 * w) + u) / (2 * w) = v := by
    rw [Nat.mul_comm v, Nat.mul_add_div (by omega), Nat.div_eq_of_lt hu, Nat.add_zero]
  have hcolumn : (v * (2 * w) + u) % (2 * w) = u := Nat.mul_add_mod_of_lt hu
  obtain ⟨-, hpaints⟩ := paints_upscaleChannel (channel := channel) (src := src) (d := dst) m hm
  calc (upscaleChannel channel src dst w h m).read (upscaledAddress dst w v u)
    _ = upscaledByte channel src w h ((upscaledAddress dst w v u - dst) / (2 * w))
        ((upscaledAddress dst w v u - dst) % (2 * w)) :=
      (hpaints _).1 (by rw [upscaledAddress]; omega)
    _ = upscaledByte channel src w h v u := by rw [hoffset, hrow, hcolumn]

/-- What holds of the operands of an `OK` call (R49 to R51, R200). -/
theorem operands_of_callOk_bilinearUpscale {s : State} {src dst w h : Nat}
    (hok : callOk (.bilinearUpscale src dst w h) s = true) :
    1 ≤ w ∧ 1 ≤ h ∧ src + w * h ≤ s.memSize ∧ dst + 4 * (w * h) ≤ s.memSize ∧
      (src + w * h ≤ dst ∨ dst + 4 * (w * h) ≤ src) := by
  obtain ⟨-, -, -, -, hUpscale⟩ := outcomeOkExactlyWhen s ((callOk_iff _ s).1 hok).2
  exact (hUpscale src dst w h).1 hok

/-- What an `OK` call leaves: it is answered 0, the region stays canonical, every output byte is the
upscaled one, and the other bytes are as they were (R53, R200). -/
theorem exec_bilinearUpscale_of_callOk {s : State} {src dst w h : Nat} (hm : s.mem.wf = true)
    (hok : callOk (.bilinearUpscale src dst w h) s = true) :
    ∃ t, exec (.bilinearUpscale src dst w h) s = .next t ∧ Answered s t 0 ∧ t.mem.wf = true ∧
      (∀ v u, v < 2 * h → u < 2 * w →
        t.mem.read (upscaledAddress dst w v u) = upscaledByte s.mem src w h v u) ∧
      SameOutside dst (dst + 4 * (w * h)) s.mem t.mem := by
  obtain ⟨hwf, -⟩ := paints_upscaleChannel (channel := s.mem) (src := src) (d := dst) (w := w)
    (h := h) s.mem hm
  exact ⟨_, exec_of_callOk hok, answered_deliverResponse responseLegal s, hwf,
    fun v u => read_upscaleChannel hm s.mem src dst,
    sameOutside_commandResult (i := .bilinearUpscale src dst w h) rfl hm⟩

/-- Settles O27: the call is `OK`, and each output byte is the upscaled one; only the neighbours can
lie past the last column or row. -/
theorem bilinearUpscaleResult : Obligations.BilinearUpscaleResult := by
  intro s src dst w h hm hs hw hh hsrc hdst hdisj
  obtain ⟨-, -, -, -, hUpscale⟩ := outcomeOkExactlyWhen s hs
  have hok := (hUpscale src dst w h).2 ⟨hw, hh, hsrc, hdst, hdisj⟩
  obtain ⟨t, hexec, hanswered, -, hread, hframe⟩ := exec_bilinearUpscale_of_callOk hm hok
  refine ⟨t, hexec, hanswered, fun y x hy hx tl tr bl br htl htr hbl hbr => ?_, hframe⟩
  have hTL : clampedSample s.mem src w h y x = tl := by
    rw [htl, clampedSample, clamp_eq_self hy, clamp_eq_self hx]
  have hTR : clampedSample s.mem src w h y (x + 1) = tr := by
    rw [htr, clampedSample, clamp_eq_self hy]
  have hBL : clampedSample s.mem src w h (y + 1) x = bl := by
    rw [hbl, clampedSample, clamp_eq_self hx]
  have hBR : clampedSample s.mem src w h (y + 1) (x + 1) = br := hbr.symm
  rw [Nat.add_assoc (dst + 2 * y * (2 * w)), Nat.add_assoc (dst + (2 * y + 1) * (2 * w))]
  refine ⟨(hread (2 * y) (2 * x) (by omega) (by omega)).trans ?_,
    (hread (2 * y) (2 * x + 1) (by omega) (by omega)).trans ?_,
    (hread (2 * y + 1) (2 * x) (by omega) (by omega)).trans ?_,
    (hread (2 * y + 1) (2 * x + 1) (by omega) (by omega)).trans ?_⟩
  · rw [upscaledByte_evenRow_evenColumn, hTL]
  · rw [upscaledByte_evenRow_oddColumn, hTL, hTR]
  · rw [upscaledByte_oddRow_evenColumn, hTL, hBL]
  · rw [upscaledByte_oddRow_oddColumn, hTL, hTR, hBL, hBR, diagonalAvg]

/-! ### The last output column and row (R209) -/

section
variable {channel : Memory} {src w h : Nat}

/-- The right neighbour of the last column is that column itself (R202). -/
theorem clampedSample_rightOfLastColumn (y : Nat) :
    clampedSample channel src w h y (w - 1 + 1) = clampedSample channel src w h y (w - 1) := by
  have hclamp : min (w - 1 + 1) (w - 1) = min (w - 1) (w - 1) := by omega
  rw [clampedSample, hclamp, clampedSample]

/-- The row below the last one is that row itself (R202). -/
theorem clampedSample_belowLastRow (x : Nat) :
    clampedSample channel src w h (h - 1 + 1) x = clampedSample channel src w h (h - 1) x := by
  have hclamp : min (h - 1 + 1) (h - 1) = min (h - 1) (h - 1) := by omega
  rw [clampedSample, hclamp, clampedSample]

theorem upscaledByte_lastColumn (v : Nat) :
    upscaledByte channel src w h v (2 * (w - 1) + 1) =
      upscaledByte channel src w h v (2 * (w - 1)) := by
  obtain ⟨y, rfl | rfl⟩ := Nat.even_or_odd' v
  · rw [upscaledByte_evenRow_oddColumn, upscaledByte_evenRow_evenColumn,
      clampedSample_rightOfLastColumn, roundAvg_self]
  · rw [upscaledByte_oddRow_oddColumn, upscaledByte_oddRow_evenColumn,
      clampedSample_rightOfLastColumn, clampedSample_rightOfLastColumn, diagonalAvg_equalColumns]

theorem upscaledByte_lastRow (u : Nat) :
    upscaledByte channel src w h (2 * (h - 1) + 1) u =
      upscaledByte channel src w h (2 * (h - 1)) u := by
  obtain ⟨x, rfl | rfl⟩ := Nat.even_or_odd' u
  · rw [upscaledByte_oddRow_evenColumn, upscaledByte_evenRow_evenColumn,
      clampedSample_belowLastRow, roundAvg_self]
  · rw [upscaledByte_oddRow_oddColumn, upscaledByte_evenRow_oddColumn,
      clampedSample_belowLastRow, clampedSample_belowLastRow, diagonalAvg_equalRows]

end

/-- Settles O43: an average of a sample with itself is the sample, and at the last column and row a
sample is its own neighbour. -/
theorem upscaleRepeatsLastColumnAndRow : Obligations.UpscaleRepeatsLastColumnAndRow := by
  intro s src dst w h hm hok
  obtain ⟨hw, hh, -⟩ := operands_of_callOk_bilinearUpscale hok
  obtain ⟨t, hexec, -, -, hread, -⟩ := exec_bilinearUpscale_of_callOk hm hok
  have hlastColumn : 2 * w - 1 = 2 * (w - 1) + 1 := by omega
  have hcolumnBefore : 2 * w - 2 = 2 * (w - 1) := by omega
  have hlastRow : 2 * h - 1 = 2 * (h - 1) + 1 := by omega
  have hrowBefore : 2 * h - 2 = 2 * (h - 1) := by omega
  rw [hlastColumn, hcolumnBefore, hlastRow, hrowBefore]
  refine ⟨t, hexec, fun y hy => ⟨?_, ?_⟩, fun v hv => ?_, fun u hu => ?_⟩
  · rw [hread _ _ (by omega) (by omega), upscaledByte_lastColumn, upscaledByte_evenRow_evenColumn,
      clampedSample, clamp_eq_self hy, Nat.min_self]
  · rw [hread _ _ (by omega) (by omega), upscaledByte_lastColumn, upscaledByte_oddRow_evenColumn,
      clampedSample, clampedSample, clamp_eq_self hy, Nat.min_self]
  · rw [hread _ _ hv (by omega), hread _ _ hv (by omega), upscaledByte_lastColumn]
  · rw [hread _ _ (by omega) hu, hread _ _ (by omega) hu, upscaledByte_lastRow]

/-! ### Channels with equal rows (R208) -/

/-- If all rows of a channel are the row `row`, so are all output rows: each repeats the samples and
puts the averages of neighbours between them. -/
theorem upscaledByte_of_equalRows {channel : Memory} {src w h : Nat} {row : Nat → Byte}
    (hrows : ∀ y x, clampedSample channel src w h y x = row x) (v u : Nat) :
    upscaledByte channel src w h v u =
      if u % 2 = 0 then row (u / 2) else roundAvg (row (u / 2)) (row (u / 2 + 1)) := by
  simp only [upscaledByte, hrows, roundAvg_self, diagonalAvg_equalRows, ite_self]

/-- A clamped sample of a uniform channel. -/
theorem clampedSample_of_uniform {channel : Memory} {src w h : Nat} {b : Byte} (hw : 1 ≤ w)
    (hh : 1 ≤ h) (huniform : ∀ k, k < w * h → channel.read (src + k) = b) (y x : Nat) :
    clampedSample channel src w h y x = b := by
  have hin : min y (h - 1) * w + min x (w - 1) < h * w := index_lt_area (by omega) (by omega)
  rw [clampedSample, Nat.add_assoc]
  exact huniform _ (Nat.mul_comm h w ▸ hin)

/-- The rows of the channel `[[0,255],[0,255]]`, continued to the right. -/
def zeroThenFull (x : Nat) : Byte := if x = 0 then 0 else 255

theorem clampedSample_zeroThenFull {channel : Memory} {src : Nat} (h0 : channel.read src = 0)
    (h1 : channel.read (src + 1) = 255) (h2 : channel.read (src + 2) = 0)
    (h3 : channel.read (src + 3) = 255) (y x : Nat) :
    clampedSample channel src 2 2 y x = zeroThenFull x := by
  have hy : min y 1 = 0 ∨ min y 1 = 1 := by omega
  have hx : (min x 1 = 0 ∧ x = 0) ∨ (min x 1 = 1 ∧ x ≠ 0) := by omega
  rcases hy with hy | hy <;> rcases hx with ⟨hx, hx0⟩ | ⟨hx, hx0⟩ <;>
    simp [clampedSample, zeroThenFull, hy, hx, hx0, h0, h1, h2, h3]

/-- The row and column of the output byte at offset `k` of the output range (R206). -/
theorem upscaledAddress_of_offset (dst w k : Nat) :
    upscaledAddress dst w (k / (2 * w)) (k % (2 * w)) = dst + k := by
  rw [upscaledAddress, Nat.add_assoc, Nat.div_add_mod']

/-- Settles O44: in both channels all rows are equal. -/
theorem upscaleOfUniformChannel : Obligations.UpscaleOfUniformChannel := by
  constructor
  · intro s src dst w h b hm hok huniform
    obtain ⟨hw, hh, -⟩ := operands_of_callOk_bilinearUpscale hok
    obtain ⟨t, hexec, -, -, hread, -⟩ := exec_bilinearUpscale_of_callOk hm hok
    refine ⟨t, hexec, fun k hk => ?_⟩
    have harea : 4 * (w * h) = 2 * w * (2 * h) := by ring
    have hrow : k / (2 * w) < 2 * h := Nat.div_lt_of_lt_mul (harea ▸ hk)
    have hcolumn : k % (2 * w) < 2 * w := Nat.mod_lt k (by omega)
    rw [← upscaledAddress_of_offset dst w k, hread _ _ hrow hcolumn,
      upscaledByte_of_equalRows (clampedSample_of_uniform hw hh huniform), roundAvg_self, ite_self]
  · intro s src dst hm hok h0 h1 h2 h3
    obtain ⟨t, hexec, -, -, hread, -⟩ := exec_bilinearUpscale_of_callOk hm hok
    have hcolumn {u : Nat} (hu : u < 4) {v : Nat} (hv : v < 4) :=
      (hread v u hv hu).trans
        (upscaledByte_of_equalRows (clampedSample_zeroThenFull h0 h1 h2 h3) v u)
    exact ⟨t, hexec, by decide, hcolumn (by decide) (by decide), fun v hv =>
      ⟨hcolumn (by decide) hv, hcolumn (by decide) hv, hcolumn (by decide) hv,
        hcolumn (by decide) hv⟩⟩

/-! ### The call that normalizes the output (R207, R64) -/

/-- Settles O45: the upscale leaves a canonical region and an undisturbed engine, so `yToHwResult`
speaks of the next call; its count is a multiple of 4 for every size. -/
theorem upscaledChannelIsNormalizedNext : Obligations.UpscaledChannelIsNormalizedNext := by
  intro s src dst out w h hm hok hout hdisj
  obtain ⟨hw, hh, -, hdst, -⟩ := operands_of_callOk_bilinearUpscale hok
  obtain ⟨t, hexec, hanswered, hwf, -⟩ := exec_bilinearUpscale_of_callOk hm hok
  obtain ⟨-, -, hundisturbed, hsize, -⟩ := hanswered
  have harea : 1 ≤ w * h := Nat.mul_pos hw hh
  obtain ⟨t', hexec', -, hfloats, -⟩ := yToHwResult t dst out (4 * (w * h)) hwf hundisturbed
    (by omega) (by omega) (by omega) (by omega) (by omega)
  exact ⟨t, t', hexec, hexec', hfloats⟩

end Sys2Proof.Machine
end

section
/-!
PROOFS. The exceptions (60_exceptions.md): the answer to an illegal packet, which does not look at the
region (R224), and the answer to every legal command (R220).
-/

namespace Sys2Proof.Machine

/-! ### An illegal packet (R224) -/

/-- A `BUSY` engine whose latches do not decode raises `IllegalCommand` on its turn. -/
theorem step_illegal {s : State} {why : IllegalPacket} (hbusy : s.status = .busy)
    (hd : decode (latchedPacket s) = .illegal why) (hnext : engineIsNext s = true) :
    step s = .next (raiseIllegalCommand (engineState s)) := by
  rw [step_of_engineIsNext hnext, engineStep_illegal (by simpa) (by simpa)]

/-- The state the engine's turn starts from carries the region along unread. -/
theorem engineState_setMem (s : State) (m : Memory) :
    engineState { s with mem := m } = { engineState s with mem := m } := by
  simp only [engineState]; split <;> rfl

/-- `IllegalCommand` carries the region along unread (R224). -/
theorem raiseIllegalCommand_setMem (s : State) (m : Memory) :
    raiseIllegalCommand { s with mem := m } = { raiseIllegalCommand s with mem := m } := rfl

/-- The turn that answers an illegal packet is the same over every region: the engine reads none of it
(R224). -/
theorem step_illegal_setMem {s : State} {why : IllegalPacket} (hbusy : s.status = .busy)
    (hd : decode (latchedPacket s) = .illegal why) (hnext : engineIsNext s = true) (m : Memory) :
    step { s with mem := m } = .next { raiseIllegalCommand (engineState s) with mem := m } := by
  rw [step_illegal (s := { s with mem := m }) hbusy hd hnext, engineState_setMem,
    raiseIllegalCommand_setMem]

/-- Settles O12: the step raises `IllegalCommand` over any region, and every command that ends has been
answered 0. -/
theorem illegalPacketAnsweredOne : Obligations.IllegalPacketAnsweredOne := by
  refine ⟨fun s why hbusy hd hnext => ?_, fun i s t hexec => ?_⟩
  · exact ⟨_, step_illegal hbusy hd hnext, answered_deliverResponse responseIllegal _,
      engineState_mem s, step_illegal_setMem hbusy hd hnext⟩
  · obtain ⟨-, hrsp, -⟩ := answered_of_exec hexec
    exact hrsp

/-! ### A legal command (R220) -/

/-- Settles O13: every command has a next state, and a command that ends has been answered 0. -/
theorem everyLegalCommandAnsweredZero : Obligations.EveryLegalCommandAnsweredZero := by
  intro i s
  obtain ⟨u, hexec, -⟩ := exec_eq_deliverResponse i s
  exact ⟨_, hexec, answered_of_exec hexec⟩

end Sys2Proof.Machine
end

section
/-!
PROOFS. Reset and hazards (70_reset_and_hazards.md): what a reset leaves (R250, R252), that the engine's
turn never stops and every call ends (R259), host writes to the bytes of waiting packets (R267), and the
growing region (R269).
-/

namespace Sys2Proof.Machine

/-! ### The reset (R250, R252) -/

/-- What a reset that hits an `OK` call leaves at every address: free bytes of one draw in the output
range, the old bytes elsewhere (R252). -/
theorem read_hostReset_of_callOk {s : State} {i : Instr} (hm : s.mem.wf = true)
    (hr : runningCommand s = some i) (hc : callOk i s = true) (a : Nat) :
    (hostReset s).mem.read a =
      if (outSpan i).lo ≤ a ∧ a < (outSpan i).hi then Config.freeByte s.free a
      else s.mem.read a := by
  rw [hostReset_mem_of_callOk hr hc, read_freeFill hm, Nat.add_sub_cancel' (outSpan_lo_le_hi i)]

/-- Settles O51: the reset fills the output range of the running call and no other byte. -/
theorem resetDuringCallSparesOtherBytes : Obligations.ResetDuringCallSparesOtherBytes := by
  intro s i rest hm hhost hbusy hlegal hok
  have hread := read_hostReset_of_callOk (s := { s with host := rest }) hm
    (runningCommand_eq hbusy hlegal) hok
  refine ⟨_, step_assertReset hhost, rfl, rfl, rfl, fun a ha => ?_, fun a hlo hhi => ?_⟩
  · exact (hread a).trans (if_neg (by omega))
  · exact (hread a).trans (if_pos ⟨hlo, hhi⟩)

/-- Settles O50: the reset sets the status and the channels, and keeps the region where no legal command
is running. -/
theorem resetEmptiesChannelsKeepsRegion : Obligations.ResetEmptiesChannelsKeepsRegion :=
  fun s rest hhost =>
    ⟨_, step_assertReset hhost, rfl, rfl, rfl, hostReset_memSize _, hostReset_host _,
      fun hnone => hostReset_mem_of_none (s := { s with host := rest }) hnone⟩

/-! ### Host writes after presentation (R267, log entry 10) -/

/-- What one step does to the waiting packets and to the running call, marks included: the engine takes
its turn, the host writes a byte, or the host resets the engine; its other actions keep every waiting
packet in its place and do not touch the running call. -/
theorem step_mark_cases {s t : State} (h : step s = .next t) :
    (engineIsNext s = true ∧ engineStep (engineState s) = .next t) ∨
    (∃ a b rest, s.host = .write a b :: rest ∧ hostWrite a b { s with host := rest } = .next t) ∨
    (∃ rest, s.host = .assertReset :: rest ∧ t = hostReset { s with host := rest }) ∨
    (s.cmdChan <+: t.cmdChan ∧ latchedPacket t = latchedPacket s ∧ t.disturbed = s.disturbed) := by
  rcases step_cases h with hengine | ⟨p, rest, -, rfl⟩ | hwrite | ⟨a, rest, -, hread⟩ |
    ⟨r, later, rest, -, -, rfl⟩ | ⟨n, rest, -, hgrow⟩ | hreset
  · exact .inl hengine
  · exact .inr (.inr (.inr ⟨List.prefix_append _ _, rfl, rfl⟩))
  · exact .inr (.inl hwrite)
  · obtain ⟨-, ⟨-, rfl⟩ | ⟨-, rfl⟩⟩ := hostRead_cases hread <;>
      exact .inr (.inr (.inr ⟨List.prefix_rfl, rfl, rfl⟩))
  · exact .inr (.inr (.inr ⟨List.prefix_rfl, rfl, rfl⟩))
  · obtain ⟨-, -, -, rfl⟩ := hostGrow_cases hgrow
    exact .inr (.inr (.inr ⟨List.prefix_rfl, rfl, rfl⟩))
  · exact .inr (.inr (.inl hreset))

/-- Every step but a host write or a reset keeps the waiting packets with their marks, or accepts the
oldest with its mark (R73). -/
theorem step_keepsMarks {s t : State} (h : step s = .next t)
    (hnotWrite : ∀ a b rest, s.host ≠ .write a b :: rest)
    (hnotReset : ∀ rest, s.host ≠ .assertReset :: rest) :
    s.cmdChan <+: t.cmdChan ∨
    ∃ p, s.status = .idle ∧ t.status = .busy ∧ s.cmdChan = p :: t.cmdChan ∧
      latchedPacket t = p.packet ∧ t.disturbed = p.disturbed := by
  rcases step_mark_cases h with ⟨-, hengine⟩ | ⟨a, b, rest, hhost, -⟩ | ⟨rest, hhost, -⟩ |
    ⟨hprefix, -⟩
  · rcases engineStep_cmdChan hengine with hsame | haccept
    · rw [engineState_cmdChan] at hsame
      exact .inl (hsame ▸ List.prefix_rfl)
    · rw [engineState_status, engineState_cmdChan] at haccept
      exact .inr haccept
  · exact absurd hhost (hnotWrite a b rest)
  · exact absurd hhost (hnotReset rest)
  · exact .inl hprefix

/-- The turn of a `BUSY` engine ends its call (R86). -/
theorem engineStep_idle_of_busy {s t : State} (h : engineStep s = .next t) (hs : s.status = .busy) :
    t.status = .idle := by
  rcases engineStep_rspChan h with ⟨hidle, -⟩ | ⟨-, hidle, -⟩
  · simp [hs] at hidle
  · exact hidle

/-- While a call goes on, its packet stays in the latches, and a mark on it stays. -/
theorem step_keepsRunningCall {s t : State} (h : step s = .next t) (hs : s.status = .busy)
    (ht : t.status = .busy) :
    latchedPacket t = latchedPacket s ∧ (s.disturbed = true → t.disturbed = true) := by
  rcases step_mark_cases h with ⟨-, hengine⟩ | ⟨a, b, rest, -, hwrite⟩ | ⟨rest, -, rfl⟩ |
    ⟨-, hlatched, hmark⟩
  · have hidle := engineStep_idle_of_busy hengine (by simpa using hs)
    simp [ht] at hidle
  · obtain ⟨-, rfl⟩ := hostWrite_cases hwrite
    exact ⟨rfl, fun hd => by simp [hd]⟩
  · simp at ht
  · exact ⟨hlatched, fun hd => hmark.trans hd⟩

/-- Settles O55: the write marks each waiting packet by its own ranges, the other steps keep the marks
of the waiting packets and of the running call, and a marked call is not `OK`. -/
theorem hostWriteAfterPresentation : Obligations.HostWriteAfterPresentation := by
  refine ⟨fun s a b rest ha hhost => ?_, fun _ _ => step_keepsMarks,
    fun _ _ => step_keepsRunningCall, fun _ i hd => callOk_of_disturbed hd i⟩
  obtain ⟨t, hstep, -, -, -, -, -, hchan, -⟩ := step_write_inside ha hhost
  exact ⟨t, hstep, by simp [hchan], fun k p hp => by simp [hchan, hp]⟩

/-! ### Every call ends (R259) -/

/-- The turn of a `BUSY` engine answers its call: 0 for a legal command, 1 for an illegal packet, which
leaves the region alone (R220, R224). -/
theorem engineStep_answered {s : State} (hbusy : s.status = .busy) :
    ∃ t rsp, engineStep s = .next t ∧ Answered s t rsp ∧
      ((∃ i, decode (latchedPacket s) = .legal i) → rsp = 0) ∧
      ((∃ why, decode (latchedPacket s) = .illegal why) → rsp = 1 ∧ t.mem = s.mem) := by
  cases hd : decode (latchedPacket s) with
  | legal i =>
    obtain ⟨t, hexec, hanswered⟩ := everyLegalCommandAnsweredZero i s
    exact ⟨t, 0, (engineStep_legal hbusy hd).trans hexec, hanswered, fun _ => rfl, by simp⟩
  | illegal why =>
    exact ⟨_, 1, engineStep_illegal hbusy hd, answered_deliverResponse responseIllegal s, by simp,
      fun _ => ⟨rfl, rfl⟩⟩

/-- The engine's turn has a next state, whatever the status and the channels hold. -/
theorem engineStep_total (s : State) : ∃ t, engineStep s = .next t := by
  cases hs : s.status with
  | idle =>
    cases hchan : s.cmdChan with
    | nil => exact ⟨s, engineStep_waits hs hchan⟩
    | cons p rest => exact ⟨_, engineStep_accept hs hchan⟩
  | busy =>
    obtain ⟨t, -, hstep, -⟩ := engineStep_answered hs
    exact ⟨t, hstep⟩

/-- Settles O14: the step is the engine's turn. -/
theorem engineTurnNeverStops : Obligations.EngineTurnNeverStops := by
  intro s hnext
  rw [step_of_engineIsNext hnext]
  exact engineStep_total (engineState s)

/-- With nothing left for the host to do the engine takes every turn. -/
theorem step_of_host_nil {s : State} (h : s.host = []) : step s = engineStep s := by
  rw [step, h]

/-- A run goes on from the state its first step leads to. -/
theorem run_succ_of_step {s t : State} (h : step s = .next t) (k : Nat) :
    Host.Core.run Sys2Proof.core (k + 1) s = Host.Core.run Sys2Proof.core k t := by
  have hcore : Sys2Proof.core.step s = .next t := h
  simp only [Host.Core.run, hcore]

/-- The state in which an engine with nothing else waiting has accepted `p`, the last packet the host
had to present. -/
def acceptedState (p : Packet) (s : State) : State :=
  latchPacket p false { s with cmdChan := [], host := [] }

/-- Two steps from an idle engine present a packet and accept it (R73). -/
theorem run_present_accept {s : State} {p : Packet} (hidle : s.status = .idle)
    (hchan : s.cmdChan = []) (hhost : s.host = [.present p]) (k : Nat) :
    Host.Core.run Sys2Proof.core (k + 2) s = Host.Core.run Sys2Proof.core k (acceptedState p s) := by
  have hwaiting : (hostPresent p { s with host := [] }).cmdChan = [⟨p, false⟩] := by simp [hchan]
  have haccept : step (hostPresent p { s with host := [] }) = .next (acceptedState p s) :=
    (step_of_host_nil rfl).trans (engineStep_accept (by simpa using hidle) hwaiting)
  exact (run_succ_of_step (step_present hhost) (k + 1)).trans (run_succ_of_step haccept k)

/-- Settles O15: the third step answers the call that the first two presented and accepted. -/
theorem presentedPacketIsAnswered : Obligations.PresentedPacketIsAnswered := by
  intro s p hidle hchan hhost
  have hlatched : latchedPacket (acceptedState p s) = p := latchedPacket_latchPacket p false _
  obtain ⟨t, rsp, hstep, hanswered, hlegal, hillegal⟩ :=
    engineStep_answered (s := acceptedState p s) rfl
  rw [hlatched] at hlegal hillegal
  obtain ⟨htidle, hrsp, -, -, htchan, hthost, -⟩ := hanswered
  have hrun : Host.Core.run Sys2Proof.core 3 s = .next t :=
    (run_present_accept hidle hchan hhost 1).trans
      (run_succ_of_step ((step_of_host_nil rfl).trans hstep) 0)
  refine ⟨t, hrun, htidle, htchan, hthost, fun h => ?_, fun h => ?_⟩
  · rw [hrsp, hlegal h]
    rfl
  · obtain ⟨hone, hmem⟩ := hillegal h
    exact ⟨by rw [hrsp, hone]; rfl, hmem⟩

/-! ### Growing the region (R269) -/

/-- Growing between calls, inside the address space. -/
theorem hostGrow_between_calls {s : State} {n : Nat} (hidle : s.status = .idle)
    (hchan : s.cmdChan = []) (hmax : s.memSize + n ≤ Config.addressSpace) :
    hostGrow n s = .next { s with
      mem := freeFill s.free s.memSize n s.mem
      memSize := s.memSize + n
      free := s.free + 1 } := by
  rw [hostGrow, if_neg (by simp [hidle, hchan]), if_neg (by omega)]

/-- Growing while a packet is presented or running (log entry 12). -/
theorem hostGrow_during_call {s : State} (h : s.status = .busy ∨ s.cmdChan ≠ []) (n : Nat) :
    hostGrow n s = .refused .regionGrownDuringCall := by
  rw [hostGrow, if_pos h]

/-- Settles O57: growing fills the bytes from `MEM_SIZE` on, so the bytes below it stay. -/
theorem growingKeepsExistingBytes : Obligations.GrowingKeepsExistingBytes := by
  intro s n rest hm hhost
  refine ⟨fun hidle hchan hmax => ?_, fun hcall => ?_⟩
  · refine ⟨_, (step_grow hhost).trans
      (hostGrow_between_calls (s := { s with host := rest }) hidle hchan hmax), rfl, fun a ha => ?_⟩
    exact (read_freeFill hm ..).trans (if_neg fun hnew => absurd ha hnew.1.not_gt)
  · exact (step_grow hhost).trans (hostGrow_during_call (s := { s with host := rest }) hcall n)

end Sys2Proof.Machine
end
